-- ==== Sys2Proof/Word.lean ====
section
/-! DEFINITION. The word types of the core: every register, memory word and instruction is 16 bits
(00_scope.md R15), a character on the keyboard and output interfaces is 8 bits (R8), and a register
field is 3 bits (30_encoding.md R83). Arithmetic on `Word` is modulo 65536, as `BitVec 16` has it. -/

namespace Sys2Proof

/-- A 16-bit register, memory word, instruction or word address (R15). -/
abbrev Word := BitVec 16

/-- An 8-bit character of the keyboard or of the output stream (R8). -/
abbrev Byte := BitVec 8

/-- A 3-bit register field: the value `i` names `x[i]`, all eight values legal (R83). -/
abbrev RegIdx := BitVec 3

end Sys2Proof
end

