-- ==== Sys2Proof/Syntax.lean ====
section
/-! DEFINITION. The instructions: one constructor for each of the 19 rows of spec/opcode_table.json
(30_encoding.md R90, R91), its arguments the operand fields of 00_scope.md R17 in the order of the
word. Bits that the core ignores (R92) are no operands. Every operand type holds exactly the values
its field can hold (R83, R86), so no operand can be out of range. -/

namespace Sys2Proof

inductive Instr where
  /-- BR (R150): `nzp` is `instr[11:9]`, bit 2 n, bit 1 z, bit 0 p (R87). -/
  | br (nzp : BitVec 3) (pcOffset9 : BitVec 9)
  /-- ADD, register mode (R120). -/
  | addReg (dr sr1 sr2 : RegIdx)
  /-- ADD, immediate mode (R121). -/
  | addImm (dr sr1 : RegIdx) (imm5 : BitVec 5)
  /-- LD (R131). -/
  | ld (dr : RegIdx) (pcOffset9 : BitVec 9)
  /-- ST (R135). -/
  | st (sr : RegIdx) (pcOffset9 : BitVec 9)
  /-- JSR, opcode 0100 with bit 11 set (R154). -/
  | jsr (pcOffset11 : BitVec 11)
  /-- JSRR, opcode 0100 with bit 11 clear (R155). -/
  | jsrr (baseR : RegIdx)
  /-- AND, register mode (R122). -/
  | andReg (dr sr1 sr2 : RegIdx)
  /-- AND, immediate mode (R123). -/
  | andImm (dr sr1 : RegIdx) (imm5 : BitVec 5)
  /-- LDR (R133). -/
  | ldr (dr baseR : RegIdx) (offset6 : BitVec 6)
  /-- STR (R137). -/
  | str (sr baseR : RegIdx) (offset6 : BitVec 6)
  /-- RTI, reserved and fatal (R180). -/
  | rti
  /-- NOT (R124). -/
  | not (dr sr1 : RegIdx)
  /-- LDI (R132). -/
  | ldi (dr : RegIdx) (pcOffset9 : BitVec 9)
  /-- STI (R136). -/
  | sti (sr : RegIdx) (pcOffset9 : BitVec 9)
  /-- JMP (R152); RET is JMP with `baseR = 7` (R153). -/
  | jmp (baseR : RegIdx)
  /-- RES, the reserved opcode, fatal (R181). -/
  | res
  /-- LEA (R134). -/
  | lea (dr : RegIdx) (pcOffset9 : BitVec 9)
  /-- TRAP (R160). -/
  | trap (trapvect8 : BitVec 8)
  deriving DecidableEq, Repr

end Sys2Proof
end

