-- ==== Sys2Proof/Decode.lean ====
section
/-! DEFINITION. The dispatcher's decoding of a word and the encoder, both written from the formats of
30_encoding.md R81 and the opcode map of R90. Decoding has two levels (R84): the opcode
`instr[15:12]` selects a handler, and ADD, AND and opcode 0100 then look at their mode bit. It is
total: each of the 65536 words decodes to exactly one row (R91), so it refuses none; the two reserved
opcodes have constructors of their own (R93). The spec has its opcode numbers and most field positions
from general knowledge of LC-3 (92_eei_decisions.md D1): UNVERIFIED, assumption log 2. -/

namespace Sys2Proof

/-- The 16 handlers the dispatcher selects among (R90). -/
inductive Opcode where
  | br | add | ld | st | jsr | and | ldr | str | rti | not | ldi | sti | jmp | res | lea | trap
  deriving DecidableEq, Repr

/-- The opcode map of R90, by the four bits of `instr[15:12]`, bit 3 first. -/
def Opcode.ofBits (op : BitVec 4) : Opcode :=
  match op.getLsbD 3, op.getLsbD 2, op.getLsbD 1, op.getLsbD 0 with
  | false, false, false, false => .br
  | false, false, false, true => .add
  | false, false, true, false => .ld
  | false, false, true, true => .st
  | false, true, false, false => .jsr
  | false, true, false, true => .and
  | false, true, true, false => .ldr
  | false, true, true, true => .str
  | true, false, false, false => .rti
  | true, false, false, true => .not
  | true, false, true, false => .ldi
  | true, false, true, true => .sti
  | true, true, false, false => .jmp
  | true, true, false, true => .res
  | true, true, true, false => .lea
  | true, true, true, true => .trap

/-- The fields of R17 and R82. -/
def fieldOpcode (w : Word) : BitVec 4 := w.extractLsb' 12 4
/-- `DR` and `SR`, `instr[11:9]`; also the mask `n z p` of BR. -/
def fieldDR (w : Word) : BitVec 3 := w.extractLsb' 9 3
/-- `SR1` and `BaseR`, `instr[8:6]`, in both modes of ADD and AND (R85). -/
def fieldSR1 (w : Word) : BitVec 3 := w.extractLsb' 6 3
/-- `SR2`, `instr[2:0]`. -/
def fieldSR2 (w : Word) : BitVec 3 := w.extractLsb' 0 3
def fieldImm5 (w : Word) : BitVec 5 := w.extractLsb' 0 5
def fieldOffset6 (w : Word) : BitVec 6 := w.extractLsb' 0 6
def fieldPCoffset9 (w : Word) : BitVec 9 := w.extractLsb' 0 9
def fieldPCoffset11 (w : Word) : BitVec 11 := w.extractLsb' 0 11
def fieldTrapvect8 (w : Word) : BitVec 8 := w.extractLsb' 0 8
/-- The mode bit of ADD and AND, `instr[5]`: set for the immediate mode. -/
def fieldImmMode (w : Word) : Bool := w.getLsbD 5
/-- The mode bit of opcode 0100, `instr[11]`: set for JSR, clear for JSRR. -/
def fieldJsrMode (w : Word) : Bool := w.getLsbD 11

/-- The instruction that the word `w` is (R91). -/
def decode (w : Word) : Instr :=
  match Opcode.ofBits (fieldOpcode w) with
  | .br => .br (fieldDR w) (fieldPCoffset9 w)
  | .add =>
    if fieldImmMode w then .addImm (fieldDR w) (fieldSR1 w) (fieldImm5 w)
    else .addReg (fieldDR w) (fieldSR1 w) (fieldSR2 w)
  | .ld => .ld (fieldDR w) (fieldPCoffset9 w)
  | .st => .st (fieldDR w) (fieldPCoffset9 w)
  | .jsr => if fieldJsrMode w then .jsr (fieldPCoffset11 w) else .jsrr (fieldSR1 w)
  | .and =>
    if fieldImmMode w then .andImm (fieldDR w) (fieldSR1 w) (fieldImm5 w)
    else .andReg (fieldDR w) (fieldSR1 w) (fieldSR2 w)
  | .ldr => .ldr (fieldDR w) (fieldSR1 w) (fieldOffset6 w)
  | .str => .str (fieldDR w) (fieldSR1 w) (fieldOffset6 w)
  | .rti => .rti
  | .not => .not (fieldDR w) (fieldSR1 w)
  | .ldi => .ldi (fieldDR w) (fieldPCoffset9 w)
  | .sti => .sti (fieldDR w) (fieldPCoffset9 w)
  | .jmp => .jmp (fieldSR1 w)
  | .res => .res
  | .lea => .lea (fieldDR w) (fieldPCoffset9 w)
  | .trap => .trap (fieldTrapvect8 w)

/-- The word of an instruction, by the formats of R81. Bits the core ignores (R92) are filled as
assemblers fill them: zeros, ones in NOT (assumption log 12). -/
def encode : Instr → Word
  | .br nzp off => 0x0#4 ++ nzp ++ off
  | .addReg dr sr1 sr2 => 0x1#4 ++ dr ++ sr1 ++ 0#1 ++ 0#2 ++ sr2
  | .addImm dr sr1 imm5 => 0x1#4 ++ dr ++ sr1 ++ 1#1 ++ imm5
  | .ld dr off => 0x2#4 ++ dr ++ off
  | .st sr off => 0x3#4 ++ sr ++ off
  | .jsr off => 0x4#4 ++ 1#1 ++ off
  | .jsrr baseR => 0x4#4 ++ 0#1 ++ 0#2 ++ baseR ++ 0#6
  | .andReg dr sr1 sr2 => 0x5#4 ++ dr ++ sr1 ++ 0#1 ++ 0#2 ++ sr2
  | .andImm dr sr1 imm5 => 0x5#4 ++ dr ++ sr1 ++ 1#1 ++ imm5
  | .ldr dr baseR off => 0x6#4 ++ dr ++ baseR ++ off
  | .str sr baseR off => 0x7#4 ++ sr ++ baseR ++ off
  | .rti => 0x8#4 ++ 0#12
  | .not dr sr1 => 0x9#4 ++ dr ++ sr1 ++ 0x3F#6
  | .ldi dr off => 0xA#4 ++ dr ++ off
  | .sti sr off => 0xB#4 ++ sr ++ off
  | .jmp baseR => 0xC#4 ++ 0#3 ++ baseR ++ 0#6
  | .res => 0xD#4 ++ 0#12
  | .lea dr off => 0xE#4 ++ dr ++ off
  | .trap v => 0xF#4 ++ 0#4 ++ v

/-- One row of spec/opcode_table.json: a word `w` is of the row when `w &&& mask = value`. -/
structure OpcodeRow where
  mnemonic : String
  value : Word
  mask : Word
  /-- The bits of the row that the core ignores (R92). -/
  ignored : Word
  deriving DecidableEq, Repr

/-- spec/opcode_table.json, its 19 rows in order (R91). -/
def opcodeRows : List OpcodeRow :=
  [⟨"BR", 0x0000, 0xF000, 0x0000⟩, ⟨"ADD", 0x1000, 0xF020, 0x0018⟩, ⟨"ADD", 0x1020, 0xF020, 0x0000⟩,
   ⟨"LD", 0x2000, 0xF000, 0x0000⟩, ⟨"ST", 0x3000, 0xF000, 0x0000⟩, ⟨"JSR", 0x4800, 0xF800, 0x0000⟩,
   ⟨"JSRR", 0x4000, 0xF800, 0x063F⟩, ⟨"AND", 0x5000, 0xF020, 0x0018⟩] ++
  [⟨"AND", 0x5020, 0xF020, 0x0000⟩, ⟨"LDR", 0x6000, 0xF000, 0x0000⟩, ⟨"STR", 0x7000, 0xF000, 0x0000⟩,
   ⟨"RTI", 0x8000, 0xF000, 0x0FFF⟩, ⟨"NOT", 0x9000, 0xF000, 0x003F⟩, ⟨"LDI", 0xA000, 0xF000, 0x0000⟩,
   ⟨"STI", 0xB000, 0xF000, 0x0000⟩, ⟨"JMP", 0xC000, 0xF000, 0x0E3F⟩] ++
  [⟨"RES", 0xD000, 0xF000, 0x0FFF⟩, ⟨"LEA", 0xE000, 0xF000, 0x0000⟩, ⟨"TRAP", 0xF000, 0xF000, 0x0F00⟩]

/-- The place of an instruction's row in `opcodeRows`. -/
def Instr.rowIndex : Instr → Nat
  | .br _ _ => 0
  | .addReg _ _ _ => 1
  | .addImm _ _ _ => 2
  | .ld _ _ => 3
  | .st _ _ => 4
  | .jsr _ => 5
  | .jsrr _ => 6
  | .andReg _ _ _ => 7
  | .andImm _ _ _ => 8
  | .ldr _ _ _ => 9
  | .str _ _ _ => 10
  | .rti => 11
  | .not _ _ => 12
  | .ldi _ _ => 13
  | .sti _ _ => 14
  | .jmp _ => 15
  | .res => 16
  | .lea _ _ => 17
  | .trap _ => 18

/-- The row matches the word. -/
def OpcodeRow.matches (r : OpcodeRow) (w : Word) : Bool := w &&& r.mask == r.value

/-- What the decoder reads from an instruction whose bits are `w`, bit 0 the least significant bit of
its one word (R80: there is one length), every bit above `nbits` zero. More than one word is no
instruction of this core. -/
def decodeTableWord (nbits w : Nat) : Option Instr :=
  if nbits ≤ 16 then some (decode (BitVec.ofNat 16 (w % 2 ^ nbits))) else none

end Sys2Proof
end

