-- ==== Sys2Proof/Config.lean ====
section
/-! DEFINITION. What an implementation fixes and the source document leaves open: the parameters of
00_scope.md R7 (92_eei_decisions.md D7). `InitMem`, the third parameter of R7, is the memory a run
starts from (`State.boot`, Machine/Load.lean). A state carries its `Params`, so a statement over all
states is a statement for every value of them; the defaults stand in Machine/Constants.lean. -/

namespace Sys2Proof

/-- The open texts of the two services that write a text of their own (R7): assumption log 9. -/
structure Params where
  /-- `IN_PROMPT`: what the IN service writes before it reads (R7, R166). -/
  inPrompt : List Byte
  /-- `HALT_NOTICE`: what the HALT service writes (R7, R171). -/
  haltNotice : List Byte
  deriving DecidableEq, Repr

end Sys2Proof
end

