-- ==== Sys2Proof/Machine/Constants.lean ====
section
/-! DEFINITION. The numbers the spec fixes for the core (00_scope.md R6) and the default texts of R7. -/

namespace Sys2Proof.Machine

/-- Reset value of `pc` (R29). -/
def resetPc : Word := 0x3000#16

/-- KBSR, the keyboard-status word: reads of it are intercepted (R38, R56). -/
def kbsrAddr : Word := 0xFE00#16

/-- KBDR, the keyboard-data word: written by the intercept, otherwise plain storage (R39). -/
def kbdrAddr : Word := 0xFE02#16

/-- What an intercepted read that found a character leaves in KBSR (R56 (a), 92_eei_decisions.md D4:
the whole word is assigned; assumption log 5). -/
def kbsrReady : Word := 0x8000#16

/-- What an intercepted read that found none leaves in KBSR (R55). -/
def kbsrIdle : Word := 0x0000#16

/-- The three legal values of `cond` (R32). -/
def condPos : Word := 0x0001#16
def condZro : Word := 0x0002#16
def condNeg : Word := 0x0004#16

/-- What a memory word that no image and no store has written reads as: R40, R201 (1), "all 65536
memory words are zero". -/
def unlistedWord : Word := 0x0000#16

/-- The default of `IN_PROMPT` (R7): the 19 characters "Enter a character: ". -/
def defaultInPrompt : List Byte :=
  [0x45, 0x6E, 0x74, 0x65, 0x72, 0x20, 0x61, 0x20, 0x63, 0x68] ++
  [0x61, 0x72, 0x61, 0x63, 0x74, 0x65, 0x72, 0x3A, 0x20]

/-- The default of `HALT_NOTICE` (R7): "HALT" and a line feed. -/
def defaultHaltNotice : List Byte := [0x48, 0x41, 0x4C, 0x54, 0x0A]

/-- The defaults of R7 (92_eei_decisions.md D7; UNVERIFIED, assumption log 9). -/
def defaultParams : Params := { inPrompt := defaultInPrompt, haltNotice := defaultHaltNotice }

end Sys2Proof.Machine
end

