-- ==== Sys2Proof/Machine/State.lean ====
section
/-! DEFINITION. The state of the core, all of it plain data (10_state.md R44), with the host-side state
the core meets through its interfaces (R43), and the reasons a step can stop. -/

namespace Sys2Proof.Machine

/-- The stored words of memory, `(address, word)` pairs: addresses strictly rising and below 65536, no
entry equal to `unlistedWord` (`Memory.wf`, Ops.lean). The cell is a word because memory has no unit
smaller (20_memory.md R52) and a word has no byte order inside the core (R53); assumption log 1. -/
abbrev Memory := List (Nat × Word)

/-- The run state (R30). -/
inductive RunState where
  | running | halted | aborted
  deriving DecidableEq, Repr

/-- Which service's `KbRead()` holds the step under way (44_trap.md R170, R193). -/
inductive Hold where
  /-- GETC waits for its character (R162). -/
  | getc
  /-- IN waits for its character; its prompt has been written (R166). -/
  | input
  deriving DecidableEq, Repr

/-- Why `step` takes no step. -/
inductive Fault where
  /-- Raised by `step` in `run = Halted`: the graceful end, after which no step is taken, ever (R110,
  R115 (a)). Safe: the machine goes on nowhere. -/
  | halted
  /-- Raised by `step` in `run = Aborted`: the fatal end (R185), "never a final state that satisfies a
  postcondition". Safe: the machine goes on nowhere. -/
  | aborted
  /-- Raised by PUTS and PUTSP when the walk over the string does not end within `walkFuel` reads: the
  hang of R165 (e). Safe. No state reaches it while the host types at step boundaries only (R116):
  `stringWalk_ends` in Laws/Walk.lean; assumption log 13. -/
  | stringNeverEnds
  deriving DecidableEq, Repr

/-- Why the model gives no meaning. -/
inductive Refusal where
  /-- Raised by a dispatch arm of an instruction that has no meaning yet; there is none. Safe. -/
  | notModelled (mnemonic : String)
  deriving DecidableEq, Repr

structure State where
  /-- `x[0]` to `x[7]` (R22). -/
  regs : Vector Word 8
  /-- `pc` (R25). -/
  pc : Word
  /-- `cond`, the whole 16-bit slot (R32); one of three values at every step boundary (R35). -/
  cond : Word
  /-- `run` (R30). -/
  run : RunState
  /-- The 65536 memory words, KBSR and KBDR among them (R40). -/
  mem : Memory
  /-- `kbq`, the characters typed and not yet read, oldest first (R11, R43). -/
  kbq : List Byte
  /-- `out`, the characters written, in order (R13, R43). -/
  out : List Byte
  /-- A step held at `KbRead()` (R170, R193): the model's name for the middle of such a step;
  assumption log 14. -/
  hold : Option Hold
  /-- The host's coming `Type` actions: the head is what it types before the next step (R11, R116).
  The model's own field, an input of the run; assumption log 8. -/
  arrivals : List (List Byte)
  /-- `IN_PROMPT` and `HALT_NOTICE` (R7): no step changes them. The model's own field; assumption
  log 9. -/
  params : Params
  deriving DecidableEq, Repr

/-- The state at reset, R44: memory with nothing loaded, a host that has typed nothing. -/
def State.reset : State where
  regs := Vector.replicate 8 0x0000#16
  pc := resetPc
  cond := condZro
  run := .running
  mem := []
  kbq := []
  out := []
  hold := none
  arrivals := []
  params := defaultParams

end Sys2Proof.Machine
end

