-- ==== Sys2Proof/Machine/Ops.lean ====
section
/-! DEFINITION. The named operations over registers, memory and the interfaces: `x[i]`, `M[a]`,
`MemRead`, `MemWrite`, `Type`, `KbAvail`, `KbRead`, `Out` (00_scope.md R16) and the one exception of
the core, `raise UnsupportedOpcode` (60_exceptions.md R185). -/

namespace Sys2Proof.Machine

/-! ### The memory array -/

/-- `M[a]` (R50). -/
def Memory.read : Memory → Nat → Word
  | [], _ => unlistedWord
  | c :: m, a => if c.1 = a then c.2 else Memory.read m a

/-- The memory without an entry for `a`. -/
def Memory.erase (m : Memory) (a : Nat) : Memory := m.filter (fun c => c.1 != a)

/-- An entry put in its place by address. -/
def Memory.insert : Memory → Nat → Word → Memory
  | [], a, v => [(a, v)]
  | c :: m, a, v => if a < c.1 then (a, v) :: c :: m else c :: Memory.insert m a v

/-- `M[a] <- v` (R60): writing what an unlisted address reads as removes the entry. -/
def Memory.write (m : Memory) (a : Nat) (v : Word) : Memory :=
  if v = unlistedWord then m.erase a else (m.erase a).insert a v

/-- The canonical form from address `lo` on. -/
def Memory.wfFrom : Nat → Memory → Bool
  | _, [] => true
  | lo, c :: m => decide (lo ≤ c.1) && decide (c.1 < 65536) && decide (c.2 ≠ unlistedWord) &&
      Memory.wfFrom (c.1 + 1) m

/-- The canonical form: addresses strictly rising and below 65536, no entry that reads as an unlisted
address does. Equal memories in this form are equal lists. -/
def Memory.wf (m : Memory) : Bool := Memory.wfFrom 0 m

/-! ### One field at a time -/

namespace State

/-- `x[i]` (R16, R22): no register is hard-wired. -/
def reg (s : State) (i : RegIdx) : Word := s.regs[i.toNat]

/-- `x[i] <- v` (R22). -/
def setReg (s : State) (i : RegIdx) (v : Word) : State := { s with regs := s.regs.set i.toNat v }

/-- `pc <- v`. -/
def setPc (s : State) (v : Word) : State := { s with pc := v }

/-- `cond <- v` (R33). -/
def setCond (s : State) (v : Word) : State := { s with cond := v }

/-- `run <- v` (R31). -/
def setRun (s : State) (v : RunState) : State := { s with run := v }

def setKbq (s : State) (q : List Byte) : State := { s with kbq := q }

def setHold (s : State) (h : Option Hold) : State := { s with hold := h }

/-- `M[a]`, the stored word with no intercept (R16). -/
def stored (s : State) (a : Word) : Word := s.mem.read a.toNat

/-- `M[a] <- v` with no more than that. -/
def store (s : State) (a v : Word) : State := { s with mem := s.mem.write a.toNat v }

/-! ### The keyboard and the output stream -/

/-- `Type(c)` (R11): the host appends a character to the tail of the queue. -/
def typeChar (s : State) (c : Byte) : State := s.setKbq (s.kbq ++ [c])

/-- The host's typing before this step (R116): the next entry of its schedule, typed in order. -/
def deliver (s : State) : State :=
  match s.arrivals with
  | [] => s
  | cs :: later => { s with kbq := s.kbq ++ cs, arrivals := later }

/-- `KbAvail()` (R11). -/
def kbAvail (s : State) : Bool := !s.kbq.isEmpty

/-- `KbRead()` (R11): the head of the queue and the state without it; `none` when it must wait. -/
def kbRead (s : State) : Option (Byte × State) :=
  match s.kbq with
  | [] => none
  | c :: q => some (c, s.setKbq q)

/-- `Out(c)` (R13). -/
def outChar (s : State) (c : Byte) : State := { s with out := s.out ++ [c] }

/-- `Out` of each character, in order. -/
def outChars (s : State) (cs : List Byte) : State := cs.foldl outChar s

/-! ### `MemRead` and `MemWrite` -/

/-- `KbPoll`: what a read of KBSR does before it returns (R55, R56). -/
def kbPoll (s : State) : State :=
  match s.kbRead with
  | some (c, s') => (s'.store kbsrAddr kbsrReady).store kbdrAddr (c.setWidth 16)
  | none => s.store kbsrAddr kbsrIdle

/-- `MemRead(a, 16)` (R55): the word read and the state after the read. Every read of the core goes
through it, the fetch among them (R61; for PUTS and PUTSP assumption log 4). -/
def memRead (s : State) (a : Word) : Word × State :=
  let s' := if a = kbsrAddr then s.kbPoll else s
  (s'.stored a, s')

/-- `MemWrite(a, 16, v)` (R60): never intercepted (R59), every address writable. -/
def memWrite (s : State) (a v : Word) : State := s.store a v

/-! ### The exception -/

/-- `raise UnsupportedOpcode(op)` (R185): `run <- Aborted` and nothing else. No register records the
cause, no handler is called; there is no return from it (R191). The handler runs after the fetch
increment, so `pc` is then the address of the offending word plus one. -/
def raiseUnsupportedOpcode (s : State) (_op : BitVec 4) : State := s.setRun .aborted

end State

end Sys2Proof.Machine
end

