-- ==== Sys2Proof/Machine/Flags.lean ====
section
/-! DEFINITION. The condition codes (10_state.md R32, R33): the one flag computation of the core, and the
test BR makes of them (30_encoding.md R87). -/

namespace Sys2Proof.Machine

/-- The value `SetCC` gives `cond` for a register that holds `v` (R33). -/
def condOf (v : Word) : Word :=
  if v = 0x0000#16 then condZro else if v.msb then condNeg else condPos

/-- `SetCC(i)` (R33): it reads the register, after the instruction's write to it. -/
def State.setCC (s : State) (i : RegIdx) : State := s.setCond (condOf (s.reg i))

/-- `x[i] <- v` and then `SetCC(i)`: how every flag-setting instruction ends (R34). -/
def State.setRegCC (s : State) (i : RegIdx) (v : Word) : State := (s.setReg i v).setCC i

/-- BR's test, `(instr[11:9] & cond[2:0]) != 0` (R87). -/
def State.branchTaken (s : State) (nzp : BitVec 3) : Bool := nzp &&& s.cond.extractLsb' 0 3 != 0#3

end Sys2Proof.Machine
end

