-- ==== Sys2Proof/Machine/Operands.lean ====
section
/-! DEFINITION. Every operand form: the sign extension of an immediate or offset (30_encoding.md R88), the
three ways to form a data address (42_data_movement.md R130), the two relative targets of
43_control.md, and the characters of a string word (44_trap.md R164, R167). Addresses count words and
wrap modulo 65536 (R28, R86); `pc` is already incremented (R17). -/

namespace Sys2Proof.Machine

/-- `sext_N(v)`, the pseudocode of R88; the core uses it at N = 5, 6, 9 and 11. -/
def sext {n : Nat} (v : BitVec n) : Word :=
  if v.msb then v.setWidth 16 ||| (0xFFFF#16 <<< n) else v.setWidth 16

/-- `zext_8(c)` (R16). -/
def zext8 (c : Byte) : Word := c.setWidth 16

/-- `w[7:0]`. -/
def lowByte (w : Word) : Byte := w.extractLsb' 0 8

/-- `w[15:8]`. -/
def highByte (w : Word) : Byte := w.extractLsb' 8 8

/-- The PC-relative address of LD, LDI, LEA, ST, STI and the target of BR (R130, R150). -/
def State.pcRel9 (s : State) (off : BitVec 9) : Word := s.pc + sext off

/-- The target of JSR (R154). -/
def State.pcRel11 (s : State) (off : BitVec 11) : Word := s.pc + sext off

/-- The base plus offset address of LDR and STR (R130). -/
def State.baseRel6 (s : State) (baseR : RegIdx) (off : BitVec 6) : Word := s.reg baseR + sext off

/-- What PUTS writes for a word that does not end the string (R164). -/
def putsChars (w : Word) : List Byte := [lowByte w]

/-- What PUTSP writes for a word that does not end the string (R167): the low byte always, then the
high byte if it is not zero. -/
def putspChars (w : Word) : List Byte :=
  lowByte w :: (if highByte w = 0x00#8 then [] else [highByte w])

end Sys2Proof.Machine
end

