-- ==== Sys2Proof/Machine/Control.lean ====
section
/-! DEFINITION. The control instructions BR, JMP, JSR, JSRR (43_control.md R150 to R156). None writes
`cond`; there is no delay slot. -/

namespace Sys2Proof.Machine

/-- R7, the link register of JSR, JSRR and TRAP (R23, R156). -/
def linkReg : RegIdx := 7#3

/-- `x[7] <- pc`: the return address (R156, R160). -/
def State.link (s : State) : State := s.setReg linkReg s.pc

/-- BR (R150). -/
def execBr (nzp : BitVec 3) (off : BitVec 9) (s : State) : Host.Outcome State Fault Refusal :=
  .next (if s.branchTaken nzp then s.setPc (s.pcRel9 off) else s)

/-- JMP (R152); with `baseR = 7` it is RET (R153). -/
def execJmp (baseR : RegIdx) (s : State) : Host.Outcome State Fault Refusal :=
  .next (s.setPc (s.reg baseR))

/-- JSR (R154). -/
def execJsr (off : BitVec 11) (s : State) : Host.Outcome State Fault Refusal :=
  .next (s.link.setPc (s.link.pcRel11 off))

/-- JSRR (R155): the base register is read after R7 is written. -/
def execJsrr (baseR : RegIdx) (s : State) : Host.Outcome State Fault Refusal :=
  .next (s.link.setPc (s.link.reg baseR))

end Sys2Proof.Machine
end

