-- ==== Sys2Proof/Machine/DataMovement.lean ====
section
/-! DEFINITION. The data movement instructions LD, LDI, LDR, LEA, ST, STI, STR (42_data_movement.md R130
to R138). Reads go through the intercept, in the order of 20_memory.md R62; writes do not. -/

namespace Sys2Proof.Machine

/-- `x[DR] <- MemRead(ea, 16)` and then `SetCC(DR)`: how LD, LDI and LDR end. -/
def State.loadFrom (s : State) (dr : RegIdx) (ea : Word) : State :=
  let r := s.memRead ea
  r.2.setRegCC dr r.1

/-- LD (R131). -/
def execLd (dr : RegIdx) (off : BitVec 9) (s : State) : Host.Outcome State Fault Refusal :=
  .next (s.loadFrom dr (s.pcRel9 off))

/-- LDI (R132): the pointer is read first, and both reads are intercepted. -/
def execLdi (dr : RegIdx) (off : BitVec 9) (s : State) : Host.Outcome State Fault Refusal :=
  let p := s.memRead (s.pcRel9 off)
  .next (p.2.loadFrom dr p.1)

/-- LDR (R133): the address is formed before `x[DR]` is written. -/
def execLdr (dr baseR : RegIdx) (off : BitVec 6) (s : State) : Host.Outcome State Fault Refusal :=
  .next (s.loadFrom dr (s.baseRel6 baseR off))

/-- LEA (R134): no memory access; it sets `cond`. -/
def execLea (dr : RegIdx) (off : BitVec 9) (s : State) : Host.Outcome State Fault Refusal :=
  .next (s.setRegCC dr (s.pcRel9 off))

/-- ST (R135). -/
def execSt (sr : RegIdx) (off : BitVec 9) (s : State) : Host.Outcome State Fault Refusal :=
  .next (s.memWrite (s.pcRel9 off) (s.reg sr))

/-- STI (R136): the pointer read is intercepted, the write is not. -/
def execSti (sr : RegIdx) (off : BitVec 9) (s : State) : Host.Outcome State Fault Refusal :=
  let p := s.memRead (s.pcRel9 off)
  .next (p.2.memWrite p.1 (p.2.reg sr))

/-- STR (R137). -/
def execStr (sr baseR : RegIdx) (off : BitVec 6) (s : State) : Host.Outcome State Fault Refusal :=
  .next (s.memWrite (s.baseRel6 baseR off) (s.reg sr))

end Sys2Proof.Machine
end

