-- ==== Sys2Proof/Machine/Operate.lean ====
section
/-! DEFINITION. The operate instructions ADD, AND, NOT (41_operate.md R120 to R126). `BitVec 16` addition
is modulo 65536: no carry or overflow is recorded (R125). -/

namespace Sys2Proof.Machine

/-- ADD, register mode (R120). -/
def execAddReg (dr sr1 sr2 : RegIdx) (s : State) : Host.Outcome State Fault Refusal :=
  .next (s.setRegCC dr (s.reg sr1 + s.reg sr2))

/-- ADD, immediate mode (R121). -/
def execAddImm (dr sr1 : RegIdx) (imm5 : BitVec 5) (s : State) : Host.Outcome State Fault Refusal :=
  .next (s.setRegCC dr (s.reg sr1 + sext imm5))

/-- AND, register mode (R122). -/
def execAndReg (dr sr1 sr2 : RegIdx) (s : State) : Host.Outcome State Fault Refusal :=
  .next (s.setRegCC dr (s.reg sr1 &&& s.reg sr2))

/-- AND, immediate mode (R123): the immediate is sign-extended before the AND. -/
def execAndImm (dr sr1 : RegIdx) (imm5 : BitVec 5) (s : State) : Host.Outcome State Fault Refusal :=
  .next (s.setRegCC dr (s.reg sr1 &&& sext imm5))

/-- NOT (R124). -/
def execNot (dr sr1 : RegIdx) (s : State) : Host.Outcome State Fault Refusal :=
  .next (s.setRegCC dr (~~~ s.reg sr1))

end Sys2Proof.Machine
end

