-- ==== Sys2Proof/Machine/Reserved.lean ====
section
/-! DEFINITION. The reserved opcodes (45_reserved.md R180 to R182): each takes the one exception of the
core (60_exceptions.md R185); assumption log 10. -/

namespace Sys2Proof.Machine

/-- RTI (R180). -/
def execRti (s : State) : Host.Outcome State Fault Refusal :=
  .next (s.raiseUnsupportedOpcode 0b1000#4)

/-- RES (R181). -/
def execRes (s : State) : Host.Outcome State Fault Refusal :=
  .next (s.raiseUnsupportedOpcode 0b1101#4)

end Sys2Proof.Machine
end

