-- ==== Sys2Proof/Machine/Trap.lean ====
section
/-! DEFINITION. TRAP and its six services (44_trap.md R160 to R172). A service runs inside the step that
executes the TRAP; the two that wait for a character (R170) leave `hold` set, and `resume` is the rest
of their step. The spec has its vector numbers from general knowledge of LC-3 (92_eei_decisions.md D2):
UNVERIFIED, assumption log 3. -/

namespace Sys2Proof.Machine

/-- The six services of the trap dispatcher (R161). -/
inductive Service where
  | getc | out | puts | input | putsp | halt
  deriving DecidableEq, Repr

/-- The trap dispatcher's map (R94, R161): every other vector selects nothing (R172). -/
def serviceOf (v : BitVec 8) : Option Service :=
  if v = 0x20#8 then some .getc
  else if v = 0x21#8 then some .out
  else if v = 0x22#8 then some .puts
  else if v = 0x23#8 then some .input
  else if v = 0x24#8 then some .putsp
  else if v = 0x25#8 then some .halt
  else none

/-- R0, the argument and result of the services (R23). -/
def serviceReg : RegIdx := 0#3

/-- `x[0] <- zext_8(c)` and then `SetCC(0)`: how GETC and IN end (R162, R166). -/
def State.takeChar (s : State) (c : Byte) : State := s.setRegCC serviceReg (zext8 c)

/-- What a held service does with the character it waited for: GETC takes it, IN echoes it first. -/
def State.finishRead (s : State) (h : Hold) (c : Byte) : State :=
  match h with
  | .getc => s.takeChar c
  | .input => (s.outChar c).takeChar c

/-- `c = KbRead()` of service `h` and the rest of its step. With the queue empty the step is held:
nothing else moves, and only the host's typing lifts the hold (R170, R193). -/
def State.readKey (s : State) (h : Hold) : State :=
  match s.kbRead with
  | some (c, s') => (s'.setHold none).finishRead h c
  | none => s.setHold (some h)

/-- GETC (R162). -/
def serviceGetc (s : State) : Host.Outcome State Fault Refusal := .next (s.readKey .getc)

/-- OUT (R163). -/
def serviceOut (s : State) : Host.Outcome State Fault Refusal :=
  .next (s.outChar (lowByte (s.reg serviceReg)))

/-- The walk of PUTS and PUTSP over a string (R164, R167): read the word at `a` through the intercept,
stop at a zero word, else write its characters and go on at `a + 1`, modulo 65536. `none`: `fuel`
reads found no zero word. -/
def stringWalk (chars : Word → List Byte) : Nat → Word → State → Option State
  | 0, _, _ => none
  | fuel + 1, a, s =>
    let r := s.memRead a
    if r.1 = 0x0000#16 then some r.2
    else stringWalk chars fuel (a + 1#16) (r.2.outChars (chars r.1))

/-- Reads enough for every walk that ends: up to KBSR, then once round memory for each character
pending, since a read of KBSR with none pending is zero (R55). -/
def walkFuel (a : Word) (s : State) : Nat := (kbsrAddr - a).toNat + 1 + 65536 * s.kbq.length

/-- The body of PUTS and PUTSP; a walk that does not end is the hang of R165 (e). -/
def writeString (chars : Word → List Byte) (s : State) : Host.Outcome State Fault Refusal :=
  match stringWalk chars (walkFuel (s.reg serviceReg) s) (s.reg serviceReg) s with
  | some s' => .next s'
  | none => .fault .stringNeverEnds

/-- PUTS (R164). -/
def servicePuts (s : State) : Host.Outcome State Fault Refusal := writeString putsChars s

/-- IN (R166): the prompt is written before the wait. -/
def serviceIn (s : State) : Host.Outcome State Fault Refusal :=
  .next ((s.outChars s.params.inPrompt).readKey .input)

/-- PUTSP (R167). -/
def servicePutsp (s : State) : Host.Outcome State Fault Refusal := writeString putspChars s

/-- HALT (R171). -/
def serviceHalt (s : State) : Host.Outcome State Fault Refusal :=
  .next ((s.setRun .halted).outChars s.params.haltNotice)

/-- One service, or nothing for an unknown vector (R161, R172). -/
def runService (v : BitVec 8) (s : State) : Host.Outcome State Fault Refusal :=
  match serviceOf v with
  | some .getc => serviceGetc s
  | some .out => serviceOut s
  | some .puts => servicePuts s
  | some .input => serviceIn s
  | some .putsp => servicePutsp s
  | some .halt => serviceHalt s
  | none => .next s

/-- TRAP (R160): R7 is written before the service runs, for every vector. -/
def execTrap (v : BitVec 8) (s : State) : Host.Outcome State Fault Refusal := runService v s.link

end Sys2Proof.Machine
end

