-- ==== Sys2Proof/Machine/Fetch.lean ====
section
/-! DEFINITION. The parts of one step around the dispatch (40_step_cycle.md R110 to R114): the fetch with
its increment, and what a held step does when it is taken up again. -/

namespace Sys2Proof.Machine

/-- `instr = MemRead(pc, 16)` and then `pc <- pc + 1` (R111, R112): the fetch goes through the
intercept. -/
def State.fetch (s : State) : Word × State :=
  let r := s.memRead s.pc
  (r.1, r.2.setPc (r.2.pc + 1#16))

/-- The rest of a step held at `KbRead()` by service `h` (R193). -/
def State.resume (s : State) (h : Hold) : State := s.readKey h

/-- Where `withFetchWord` lays a word: the address the next fetch reads. -/
def State.placeWord (s : State) (w : Word) : State := s.store s.pc w

end Sys2Proof.Machine
end

