-- ==== Sys2Proof/Machine/Step.lean ====
section
/-! DEFINITION. One step of the core (40_step_cycle.md R110): enabled only while `run = Running`; the
host's typing of this step boundary (R116), then either the rest of a held step (R193) or fetch,
increment, decode and execute. -/

namespace Sys2Proof.Machine

/-- One step after the host's typing, with `run = Running`. -/
def stepRunning (s : State) : Host.Outcome State Fault Refusal :=
  match s.hold with
  | some h => .next (s.resume h)
  | none => exec (decode s.fetch.1) s.fetch.2

/-- One step (R110). In `Halted` and `Aborted` no step is taken, ever. -/
def step (s : State) : Host.Outcome State Fault Refusal :=
  match s.run with
  | .running => stepRunning s.deliver
  | .halted => .fault .halted
  | .aborted => .fault .aborted

/-- `s` with the instruction whose bits are `w` stored where `step` fetches next: at `pc`. In a running
state that is not held and whose `pc` is not KBSR (whose stored word no read returns, R57 (e);
assumption log 15), the next step runs it. -/
def State.withFetchWord (s : State) (nbits w : Nat) : State :=
  s.placeWord (BitVec.ofNat 16 (w % 2 ^ nbits))

end Sys2Proof.Machine
end

