-- ==== Sys2Proof/Machine/Load.lean ====
section
/-! DEFINITION. The `Load` interface (00_scope.md R10): the memory a run starts from, `InitMem`, and how a
program image makes it (70_reset_and_hazards.md R204 to R206). The loader itself is outside the core
(R5 (a)); what it does with an image that R207 leaves open is not modelled: `none`, assumption log 16. -/

namespace Sys2Proof.Machine

/-- The state at the first step with `InitMem` in place (R7, R44). -/
def State.boot (initMem : Memory) : State := { State.reset with mem := initMem }

/-- The words of a file, each most significant byte first (R205); `none` for an odd length (R207). -/
def bigEndianWords : List Byte → Option (List Word)
  | [] => some []
  | [_] => none
  | hi :: lo :: bytes => (bigEndianWords bytes).map (fun ws => (hi ++ lo) :: ws)

/-- Words laid contiguously from address `a` on (R205); `none` if one would pass 0xFFFF (R207). -/
def Memory.loadWords : Memory → Nat → List Word → Option Memory
  | m, _, [] => some m
  | m, a, v :: vs => if a < 65536 then Memory.loadWords (m.write a v) (a + 1) vs else none

/-- One image over a memory: the first word of the file is the origin (R205). -/
def Memory.loadImage (m : Memory) (bytes : List Byte) : Option Memory :=
  match bigEndianWords bytes with
  | some (origin :: words) => m.loadWords origin.toNat words
  | some [] => none
  | none => none

/-- Images over a memory in the order given: later ones overwrite (R204). -/
def Memory.loadImages : Memory → List (List Byte) → Option Memory
  | m, [] => some m
  | m, image :: images => (m.loadImage image).bind (fun m' => Memory.loadImages m' images)

/-- The state at the first step after the host has loaded `images` (R201, R204). -/
def State.bootImages (images : List (List Byte)) : Option State :=
  (Memory.loadImages [] images).map State.boot

end Sys2Proof.Machine
end

