-- ==== Sys2Proof/WellFormed.lean ====
section
/-! DEFINITION. Which instructions a correct program may execute. Operand ranges need no check: every
operand type holds exactly its field's values, all of them legal (30_encoding.md R83, R86, R95). What
is left is the one rule that makes an instruction illegal: RTI and RES are "reserved/unused in this
architecture revision and must fail fatally if encountered" (R93, 45_reserved.md R182). -/

namespace Sys2Proof

/-- `i` is an instruction this architecture revision supports (R93). The core decodes and runs the
other two as well: executing one is the fatal abort (R185). -/
def Instr.wellFormed : Instr → Bool
  | .br _ _ => true
  | .addReg _ _ _ => true
  | .addImm _ _ _ => true
  | .ld _ _ => true
  | .st _ _ => true
  | .jsr _ => true
  | .jsrr _ => true
  | .andReg _ _ _ => true
  | .andImm _ _ _ => true
  | .ldr _ _ _ => true
  | .str _ _ _ => true
  | .rti => false
  | .not _ _ => true
  | .ldi _ _ => true
  | .sti _ _ => true
  | .jmp _ => true
  | .res => false
  | .lea _ _ => true
  | .trap _ => true

end Sys2Proof
end

