-- ==== Sys2Proof/Safety.lean ====
section
/-! DEFINITION. What a safe run is, in the terms the claims use: the invariant of every step boundary, the
two ends of a run (40_step_cycle.md R115), and the states a run reaches. -/

namespace Sys2Proof.Machine

/-- `cond` is exactly one of its three legal values (10_state.md R35). -/
def State.condOneHot (s : State) : Prop := s.cond = condPos ∨ s.cond = condZro ∨ s.cond = condNeg

/-- The invariant of every step boundary: memory in canonical form, `cond` one-hot (R35), and a held
step belongs to a running machine whose R7 already holds the return address, which is `pc` (R170). -/
def State.Inv (s : State) : Prop :=
  s.mem.wf = true ∧ s.condOneHot ∧ (s.hold ≠ none → s.run = .running ∧ s.reg 7#3 = s.pc)

/-- The graceful end (R115 (a)): the only final state a postcondition may accept (R185). -/
def State.endedGracefully (s : State) : Prop := s.run = .halted

/-- The fatal end (R115 (b)). -/
def State.endedFatally (s : State) : Prop := s.run = .aborted

/-- `t` is reached from `s` by steps. -/
inductive Reaches (s : State) : State → Prop where
  | refl : Reaches s s
  | step {t u : State} : Reaches s t → Machine.step t = .next u → Reaches s u

/-- A run from `s` is safe when it never meets the fatal end (R182, R185). -/
def State.safe (s : State) : Prop := ∀ t, Reaches s t → ¬ t.endedFatally

/-! ### Frames: what is as before -/

/-- Every general register outside `ds` is as before. -/
def SameRegsBut (s t : State) (ds : List RegIdx) : Prop := ∀ r : RegIdx, r ∉ ds → t.reg r = s.reg r

/-- Every stored word outside `as` is as before. -/
def SameMemBut (s t : State) (as : List Word) : Prop := ∀ a : Word, a ∉ as → t.stored a = s.stored a

/-- The run state, the hold, the host's schedule and the parameters are as before. -/
def SameControl (s t : State) : Prop :=
  t.run = s.run ∧ t.hold = s.hold ∧ t.arrivals = s.arrivals ∧ t.params = s.params

/-- The frame of an instruction that touches neither the keyboard queue nor the output nor the run
state: registers but `ds` and stored words but `as` as before. It leaves `pc` and `cond` to be said. -/
def Frame (s t : State) (ds : List RegIdx) (as : List Word) : Prop :=
  SameRegsBut s t ds ∧ SameMemBut s t as ∧ t.kbq = s.kbq ∧ t.out = s.out ∧ SameControl s t

/-- `c` is what the flag rule gives for a register that holds `v` (10_state.md R33). -/
def CondFor (v c : Word) : Prop :=
  c = if v = 0x0000#16 then 0x0002#16 else if v.getLsbD 15 then 0x0004#16 else 0x0001#16

/-- `n` reads of memory in ascending address order from `a` on, each through the intercept, and the
state after them (20_memory.md R62): what the services PUTS and PUTSP read. -/
def State.readsFrom : State → Nat → Word → List Word × State
  | s, 0, _ => ([], s)
  | s, n + 1, a =>
    let r := s.memRead a
    let rest := r.2.readsFrom n (a + 1#16)
    (r.1 :: rest.1, rest.2)

end Sys2Proof.Machine

/-! ### What each instruction may write, by the spec's own lists -/

namespace Sys2Proof.Instr

open Sys2Proof.Machine

/-- The instructions that may set `cond` (10_state.md R34). -/
def setsCond : Instr → Bool
  | .addReg _ _ _ | .addImm _ _ _ | .andReg _ _ _ | .andImm _ _ _ | .not _ _ => true
  | .ld _ _ | .ldi _ _ | .ldr _ _ _ | .lea _ _ => true
  | .trap v => v == 0x20#8 || v == 0x23#8
  | .st _ _ | .sti _ _ | .str _ _ _ | .br _ _ | .jmp _ | .jsr _ | .jsrr _ | .rti | .res => false

/-- The general registers an instruction may write (10_state.md R23). -/
def writesRegs : Instr → List RegIdx
  | .addReg dr _ _ | .addImm dr _ _ | .andReg dr _ _ | .andImm dr _ _ | .not dr _ => [dr]
  | .ld dr _ | .ldi dr _ | .ldr dr _ _ | .lea dr _ => [dr]
  | .jsr _ | .jsrr _ => [7#3]
  | .trap v => if v = 0x20#8 ∨ v = 0x23#8 then [0#3, 7#3] else [7#3]
  | .st _ _ | .sti _ _ | .str _ _ _ | .br _ _ | .jmp _ | .rti | .res => []

/-- The address a store writes, with the state the store runs in (R135 to R137); the pointer of STI is
read through the intercept. -/
def storeAddr (s : State) : Instr → Option Word
  | .st _ off => some (s.pc + sext off)
  | .sti _ off => some (s.memRead (s.pc + sext off)).1
  | .str _ baseR off => some (s.reg baseR + sext off)
  | .addReg _ _ _ | .addImm _ _ _ | .andReg _ _ _ | .andImm _ _ _ | .not _ _ => none
  | .ld _ _ | .ldi _ _ | .ldr _ _ _ | .lea _ _ => none
  | .br _ _ | .jmp _ | .jsr _ | .jsrr _ | .trap _ | .rti | .res => none

/-- The instructions that read memory when they execute (20_memory.md R51). -/
def readsMem : Instr → Bool
  | .ld _ _ | .ldi _ _ | .ldr _ _ _ | .sti _ _ => true
  | .trap v => v == 0x22#8 || v == 0x24#8
  | .addReg _ _ _ | .addImm _ _ _ | .andReg _ _ _ | .andImm _ _ _ | .not _ _ => false
  | .st _ _ | .str _ _ _ | .lea _ _ | .br _ _ | .jmp _ | .jsr _ | .jsrr _ | .rti | .res => false

/-- The addresses a load, or STI for its pointer, reads when it executes, in order (20_memory.md R62). The
strings of PUTS and PUTSP are no operand of the instruction: `State.readsFrom` says what they read. -/
def dataReads (s : State) : Instr → List Word
  | .ld _ off => [s.pc + sext off]
  | .ldi _ off => [s.pc + sext off, (s.memRead (s.pc + sext off)).1]
  | .ldr _ baseR off => [s.reg baseR + sext off]
  | .sti _ off => [s.pc + sext off]
  | .addReg _ _ _ | .addImm _ _ _ | .andReg _ _ _ | .andImm _ _ _ | .not _ _ => []
  | .st _ _ | .str _ _ _ | .lea _ _ | .br _ _ | .jmp _ | .jsr _ | .jsrr _ | .trap _ | .rti | .res => []

/-- The instructions that may change `pc` beyond the fetch increment (10_state.md R27). -/
def writesPc : Instr → Bool
  | .br _ _ | .jmp _ | .jsr _ | .jsrr _ => true
  | .addReg _ _ _ | .addImm _ _ _ | .andReg _ _ _ | .andImm _ _ _ | .not _ _ => false
  | .ld _ _ | .ldi _ _ | .ldr _ _ _ | .lea _ _ | .st _ _ | .sti _ _ | .str _ _ _ => false
  | .trap _ | .rti | .res => false

/-- The instructions that may write to the output stream (00_scope.md R13). -/
def writesOut : Instr → Bool
  | .trap v => v == 0x21#8 || v == 0x22#8 || v == 0x23#8 || v == 0x24#8 || v == 0x25#8
  | .addReg _ _ _ | .addImm _ _ _ | .andReg _ _ _ | .andImm _ _ _ | .not _ _ => false
  | .ld _ _ | .ldi _ _ | .ldr _ _ _ | .lea _ _ | .st _ _ | .sti _ _ | .str _ _ _ => false
  | .br _ _ | .jmp _ | .jsr _ | .jsrr _ | .rti | .res => false

/-- The instructions that call `KbRead()` themselves, GETC and IN (60_exceptions.md R193). -/
def waitsForKey : Instr → Bool
  | .trap v => v == 0x20#8 || v == 0x23#8
  | .addReg _ _ _ | .addImm _ _ _ | .andReg _ _ _ | .andImm _ _ _ | .not _ _ => false
  | .ld _ _ | .ldi _ _ | .ldr _ _ _ | .lea _ _ | .st _ _ | .sti _ _ | .str _ _ _ => false
  | .br _ _ | .jmp _ | .jsr _ | .jsrr _ | .rti | .res => false

end Sys2Proof.Instr
end

