-- ==== Sys2Proof/Certificates/Slice0/Obligations.lean ====
section
/-! DEFINITION. The statements for the provers. Each docstring names the rule of spec/ it formalises. In
the statements about an instruction, `s` is the state the handler runs in: `pc` is already incremented
(00_scope.md R17). `sext off` is R88's sign extension, itself the subject of `SignExtensionIsTwosComplement`.
The opcode numbers, field positions and vector numbers are those the rules state; the spec has them from
general knowledge (92_eei_decisions.md D1, D2; assumption logs 2, 3). -/

open Sys2Proof Sys2Proof.Machine

/-! ### Operate instructions -/

/-- R120: ADD, register mode, with any value in the ignored bits [4:3]. -/
def Obligations.AddRegisterModeAddsAndSetsFlags : Prop :=
  ∀ dr sr1 sr2 : RegIdx,
    (∀ x : BitVec 2, decode (0b0001#4 ++ dr ++ sr1 ++ 0#1 ++ x ++ sr2) = .addReg dr sr1 sr2) ∧
    ∀ s : State, ∃ t, exec (.addReg dr sr1 sr2) s = .next t ∧
      (t.reg dr).toNat = ((s.reg sr1).toNat + (s.reg sr2).toNat) % 65536 ∧
      CondFor (t.reg dr) t.cond ∧ t.pc = s.pc ∧ Frame s t [dr] []

/-- R121: ADD, immediate mode. -/
def Obligations.AddImmediateModeAddsAndSetsFlags : Prop :=
  ∀ (dr sr1 : RegIdx) (imm5 : BitVec 5),
    decode (0b0001#4 ++ dr ++ sr1 ++ 1#1 ++ imm5) = .addImm dr sr1 imm5 ∧
    ∀ s : State, ∃ t, exec (.addImm dr sr1 imm5) s = .next t ∧
      t.reg dr = s.reg sr1 + sext imm5 ∧
      CondFor (t.reg dr) t.cond ∧ t.pc = s.pc ∧ Frame s t [dr] []

/-- R122: AND, register mode, with any value in the ignored bits [4:3]. -/
def Obligations.AndRegisterModeMasksAndSetsFlags : Prop :=
  ∀ dr sr1 sr2 : RegIdx,
    (∀ x : BitVec 2, decode (0b0101#4 ++ dr ++ sr1 ++ 0#1 ++ x ++ sr2) = .andReg dr sr1 sr2) ∧
    ∀ s : State, ∃ t, exec (.andReg dr sr1 sr2) s = .next t ∧
      (∀ k, (t.reg dr).getLsbD k = ((s.reg sr1).getLsbD k && (s.reg sr2).getLsbD k)) ∧
      CondFor (t.reg dr) t.cond ∧ t.pc = s.pc ∧ Frame s t [dr] []

/-- R123: AND, immediate mode: the immediate is sign-extended before the AND. -/
def Obligations.AndImmediateModeMasksAndSetsFlags : Prop :=
  ∀ (dr sr1 : RegIdx) (imm5 : BitVec 5),
    decode (0b0101#4 ++ dr ++ sr1 ++ 1#1 ++ imm5) = .andImm dr sr1 imm5 ∧
    ∀ s : State, ∃ t, exec (.andImm dr sr1 imm5) s = .next t ∧
      (∀ k, (t.reg dr).getLsbD k = ((s.reg sr1).getLsbD k && (sext imm5).getLsbD k)) ∧
      CondFor (t.reg dr) t.cond ∧ t.pc = s.pc ∧ Frame s t [dr] []

/-- R124: NOT, with any value in the ignored bits [5:0]; the result is 0xFFFF minus the source. -/
def Obligations.NotComplementsAndSetsFlags : Prop :=
  ∀ dr sr1 : RegIdx,
    (∀ x : BitVec 6, decode (0b1001#4 ++ dr ++ sr1 ++ x) = .not dr sr1) ∧
    ∀ s : State, ∃ t, exec (.not dr sr1) s = .next t ∧
      t.reg dr = 0xFFFF#16 - s.reg sr1 ∧
      (∀ k, k < 16 → (t.reg dr).getLsbD k = !(s.reg sr1).getLsbD k) ∧
      CondFor (t.reg dr) t.cond ∧ t.pc = s.pc ∧ Frame s t [dr] []

/-! ### Data movement -/

/-- R131: LD. `MemRead` is the subject of `MemoryReadInterceptsKbsrOnly`. -/
def Obligations.LdLoadsPcRelative : Prop :=
  ∀ (dr : RegIdx) (off : BitVec 9),
    decode (0b0010#4 ++ dr ++ off) = .ld dr off ∧
    ∀ s : State, let r := s.memRead (s.pc + sext off)
      ∃ t, exec (.ld dr off) s = .next t ∧
        t.reg dr = r.1 ∧ CondFor r.1 t.cond ∧ t.pc = s.pc ∧ SameRegsBut s t [dr] ∧
        SameMemBut r.2 t [] ∧ t.kbq = r.2.kbq ∧ t.out = s.out ∧ SameControl s t ∧
        SameMemBut s t [0xFE00#16, 0xFE02#16] ∧
        (s.pc + sext off ≠ 0xFE00#16 → t.reg dr = s.stored (s.pc + sext off) ∧ Frame s t [dr] [])

/-- R132: LDI: the pointer read first, then the data read, both intercepted. -/
def Obligations.LdiLoadsThroughPointer : Prop :=
  ∀ (dr : RegIdx) (off : BitVec 9),
    decode (0b1010#4 ++ dr ++ off) = .ldi dr off ∧
    ∀ s : State, let p := s.memRead (s.pc + sext off); let r := p.2.memRead p.1
      ∃ t, exec (.ldi dr off) s = .next t ∧
        t.reg dr = r.1 ∧ CondFor r.1 t.cond ∧ t.pc = s.pc ∧ SameRegsBut s t [dr] ∧
        SameMemBut r.2 t [] ∧ t.kbq = r.2.kbq ∧ t.out = s.out ∧ SameControl s t ∧
        SameMemBut s t [0xFE00#16, 0xFE02#16] ∧
        (s.pc + sext off ≠ 0xFE00#16 → s.stored (s.pc + sext off) ≠ 0xFE00#16 →
          t.reg dr = s.stored (s.stored (s.pc + sext off)) ∧ Frame s t [dr] [])

/-- R133: LDR: the address is formed from the base register before the destination is written. -/
def Obligations.LdrLoadsBaseRelative : Prop :=
  ∀ (dr baseR : RegIdx) (off : BitVec 6),
    decode (0b0110#4 ++ dr ++ baseR ++ off) = .ldr dr baseR off ∧
    ∀ s : State, let r := s.memRead (s.reg baseR + sext off)
      ∃ t, exec (.ldr dr baseR off) s = .next t ∧
        t.reg dr = r.1 ∧ CondFor r.1 t.cond ∧ t.pc = s.pc ∧ SameRegsBut s t [dr] ∧
        SameMemBut r.2 t [] ∧ t.kbq = r.2.kbq ∧ t.out = s.out ∧ SameControl s t ∧
        SameMemBut s t [0xFE00#16, 0xFE02#16] ∧
        (s.reg baseR + sext off ≠ 0xFE00#16 →
          t.reg dr = s.stored (s.reg baseR + sext off) ∧ Frame s t [dr] [])

/-- R134: LEA: address arithmetic only, and it sets `cond`. -/
def Obligations.LeaComputesAddressAndSetsFlags : Prop :=
  ∀ (dr : RegIdx) (off : BitVec 9),
    decode (0b1110#4 ++ dr ++ off) = .lea dr off ∧
    ∀ s : State, ∃ t, exec (.lea dr off) s = .next t ∧
      t.reg dr = s.pc + sext off ∧
      CondFor (t.reg dr) t.cond ∧ t.pc = s.pc ∧ Frame s t [dr] []

/-- R135: ST: one stored word, no register, no flag. -/
def Obligations.StStoresPcRelative : Prop :=
  ∀ (sr : RegIdx) (off : BitVec 9),
    decode (0b0011#4 ++ sr ++ off) = .st sr off ∧
    ∀ s : State, ∃ t, exec (.st sr off) s = .next t ∧
      t.stored (s.pc + sext off) = s.reg sr ∧
      t.cond = s.cond ∧ t.pc = s.pc ∧ Frame s t [] [s.pc + sext off]

/-- R136: STI: the pointer read is intercepted, the write is not. -/
def Obligations.StiStoresThroughPointer : Prop :=
  ∀ (sr : RegIdx) (off : BitVec 9),
    decode (0b1011#4 ++ sr ++ off) = .sti sr off ∧
    ∀ s : State, let p := s.memRead (s.pc + sext off)
      ∃ t, exec (.sti sr off) s = .next t ∧
        t.stored p.1 = s.reg sr ∧ SameMemBut p.2 t [p.1] ∧ t.kbq = p.2.kbq ∧
        t.cond = s.cond ∧ t.pc = s.pc ∧ SameRegsBut s t [] ∧ t.out = s.out ∧ SameControl s t ∧
        SameMemBut s t [p.1, 0xFE00#16, 0xFE02#16] ∧
        (s.pc + sext off ≠ 0xFE00#16 →
          p.1 = s.stored (s.pc + sext off) ∧ Frame s t [] [s.stored (s.pc + sext off)])

/-- R137: STR. -/
def Obligations.StrStoresBaseRelative : Prop :=
  ∀ (sr baseR : RegIdx) (off : BitVec 6),
    decode (0b0111#4 ++ sr ++ baseR ++ off) = .str sr baseR off ∧
    ∀ s : State, ∃ t, exec (.str sr baseR off) s = .next t ∧
      t.stored (s.reg baseR + sext off) = s.reg sr ∧
      t.cond = s.cond ∧ t.pc = s.pc ∧ Frame s t [] [s.reg baseR + sext off]

/-! ### Control -/

/-- R150 and the test of R87: BR is taken exactly when a mask bit meets a set bit of `cond`, which for
the three legal values of `cond` is the n, z, p reading. -/
def Obligations.BrBranchesOnConditionMask : Prop :=
  ∀ (nzp : BitVec 3) (off : BitVec 9),
    decode (0b0000#4 ++ nzp ++ off) = .br nzp off ∧
    ∀ s : State, ∃ t, exec (.br nzp off) s = .next t ∧
      ((∃ k, k < 3 ∧ nzp.getLsbD k = true ∧ s.cond.getLsbD k = true) → t.pc = s.pc + sext off) ∧
      ((¬ ∃ k, k < 3 ∧ nzp.getLsbD k = true ∧ s.cond.getLsbD k = true) → t.pc = s.pc) ∧
      (s.condOneHot →
        t.pc = if (nzp.getLsbD 2 = true ∧ s.cond = 0x0004#16) ∨ (nzp.getLsbD 1 = true ∧ s.cond = 0x0002#16) ∨
          (nzp.getLsbD 0 = true ∧ s.cond = 0x0001#16) then s.pc + sext off else s.pc) ∧
      t.cond = s.cond ∧ Frame s t [] []

/-- R152: JMP, with any value in the ignored bits; R153: RET is `JMP R7`, 0xC1C0. -/
def Obligations.JmpGoesToBaseRegister : Prop :=
  (∀ baseR : RegIdx,
    (∀ (x : BitVec 3) (y : BitVec 6), decode (0b1100#4 ++ x ++ baseR ++ y) = .jmp baseR) ∧
    ∀ s : State, ∃ t, exec (.jmp baseR) s = .next t ∧
      t.pc = s.reg baseR ∧ t.cond = s.cond ∧ Frame s t [] []) ∧
  decode 0xC1C0#16 = .jmp 7#3

/-- R154: JSR. -/
def Obligations.JsrLinksAndJumpsRelative : Prop :=
  ∀ off : BitVec 11,
    decode (0b0100#4 ++ 1#1 ++ off) = .jsr off ∧
    ∀ s : State, ∃ t, exec (.jsr off) s = .next t ∧
      t.reg 7#3 = s.pc ∧ t.pc = s.pc + sext off ∧ t.cond = s.cond ∧ Frame s t [7#3] []

/-- R155: JSRR writes R7 before it reads the base register, so `JSRR R7` goes on at the next
instruction; any value in the ignored bits. -/
def Obligations.JsrrLinksThenReadsBase : Prop :=
  ∀ baseR : RegIdx,
    (∀ (x : BitVec 2) (y : BitVec 6), decode (0b0100#4 ++ 0#1 ++ x ++ baseR ++ y) = .jsrr baseR) ∧
    ∀ s : State, ∃ t, exec (.jsrr baseR) s = .next t ∧
      t.reg 7#3 = s.pc ∧ t.pc = (if baseR = 7#3 then s.pc else s.reg baseR) ∧
      t.cond = s.cond ∧ Frame s t [7#3] []

/-- R156 and the document's test S7: a JSR, then JMP R7 with R7 and only R7 kept, comes back to the
instruction after the JSR. The return is said of whole steps, with the two words in memory; `hold` and
`arrivals` are the model's fields (assumption logs 14, 8). -/
def Obligations.JsrThenRetReturns : Prop :=
  ∀ (s t u : State) (off : BitVec 11),
    s.run = .running → s.hold = none → s.arrivals = [] → s.pc ≠ 0xFE00#16 →
    s.stored s.pc = 0b0100#4 ++ 1#1 ++ off → step s = .next t →
    u.run = .running → u.hold = none → u.arrivals = [] → u.pc ≠ 0xFE00#16 →
    u.stored u.pc = 0xC1C0#16 → u.reg 7#3 = t.reg 7#3 →
    step u = .next { u with pc := s.pc + 1#16 }

/-! ### TRAP and its services -/

/-- R160, R169: every TRAP that takes a next state has written R7 with the return address before its
service, keeps `pc`, and leaves R1 to R6, memory but KBSR and KBDR, the schedule and the parameters
alone; only GETC and IN may change R0 and `cond`. R160's encoding, for any ignored bits. -/
def Obligations.TrapEntryLinksAndKeepsPc : Prop :=
  ∀ v : BitVec 8,
    (∀ x : BitVec 4, decode (0b1111#4 ++ x ++ v) = .trap v) ∧
    ∀ s t : State, exec (.trap v) s = .next t →
      t.reg 7#3 = s.pc ∧ t.pc = s.pc ∧ SameRegsBut s t [0#3, 7#3] ∧
      SameMemBut s t [0xFE00#16, 0xFE02#16] ∧ t.arrivals = s.arrivals ∧ t.params = s.params ∧
      (v ≠ 0x20#8 → v ≠ 0x23#8 → t.reg 0#3 = s.reg 0#3 ∧ t.cond = s.cond) ∧
      (v ≠ 0x25#8 → t.run = s.run)

/-- R172: a vector outside 0x20 to 0x25 writes R7 and does nothing else. -/
def Obligations.TrapUnknownVectorOnlyLinks : Prop :=
  ∀ (v : BitVec 8) (s : State), v.toNat < 0x20 ∨ 0x25 < v.toNat →
    ∃ t, exec (.trap v) s = .next t ∧
      t.reg 7#3 = s.pc ∧ t.cond = s.cond ∧ t.pc = s.pc ∧ Frame s t [7#3] []

/-- R162, R170: GETC with a character pending takes it into R0; with none pending the step is held, R7
written and nothing else of the core moved. The field `hold` is the model's name for the middle of such
a step (assumption log 14). -/
def Obligations.GetcReadsOneCharacter : Prop :=
  ∀ s : State,
    (∀ (c : Byte) (q : List Byte), s.kbq = c :: q → ∃ t, exec (.trap 0x20#8) s = .next t ∧
      t.reg 0#3 = 0x00#8 ++ c ∧ t.cond = (if c = 0x00#8 then 0x0002#16 else 0x0001#16) ∧
      t.kbq = q ∧ t.out = s.out ∧ t.reg 7#3 = s.pc ∧ t.pc = s.pc ∧ SameRegsBut s t [0#3, 7#3] ∧
      SameMemBut s t [] ∧ t.run = s.run ∧ t.hold = none ∧ t.arrivals = s.arrivals ∧
      t.params = s.params) ∧
    (s.kbq = [] → ∃ t, exec (.trap 0x20#8) s = .next t ∧
      t.hold = some .getc ∧ t.out = s.out ∧ t.reg 7#3 = s.pc ∧ t.pc = s.pc ∧ t.cond = s.cond ∧
      SameRegsBut s t [7#3] ∧ SameMemBut s t [] ∧ t.kbq = [] ∧ t.run = s.run ∧
      t.arrivals = s.arrivals ∧ t.params = s.params)

/-- R166, R170: IN writes its prompt and then, with a character pending, takes it, echoes it and sets the
flags; with none pending the step is held, R7 and the prompt written and nothing else of the core moved
(`hold`: assumption log 14). -/
def Obligations.InPromptsReadsAndEchoes : Prop :=
  ∀ s : State,
    (∀ (c : Byte) (q : List Byte), s.kbq = c :: q → ∃ t, exec (.trap 0x23#8) s = .next t ∧
      t.reg 0#3 = 0x00#8 ++ c ∧ t.cond = (if c = 0x00#8 then 0x0002#16 else 0x0001#16) ∧
      t.kbq = q ∧ t.out = s.out ++ s.params.inPrompt ++ [c] ∧ t.reg 7#3 = s.pc ∧ t.pc = s.pc ∧
      SameRegsBut s t [0#3, 7#3] ∧ SameMemBut s t [] ∧ t.run = s.run ∧ t.hold = none ∧
      t.arrivals = s.arrivals ∧ t.params = s.params) ∧
    (s.kbq = [] → ∃ t, exec (.trap 0x23#8) s = .next t ∧
      t.hold = some .input ∧ t.out = s.out ++ s.params.inPrompt ∧ t.reg 7#3 = s.pc ∧ t.pc = s.pc ∧
      t.cond = s.cond ∧ SameRegsBut s t [7#3] ∧ SameMemBut s t [] ∧ t.kbq = [] ∧ t.run = s.run ∧
      t.arrivals = s.arrivals ∧ t.params = s.params)

/-- R193: what lifts the hold is a `Type(c)` by the host and nothing else. While nothing is typed a held
step stays as it is; once a character is typed it goes on with that character, and the step as a whole
is what GETC or IN does with the character already there (V-TR-9). `hold` and `arrivals` are the model's
fields (assumption logs 14, 8). -/
def Obligations.HeldStepEndsAsIfTypedBefore : Prop :=
  (∀ (s : State) (h : Hold), s.run = .running → s.hold = some h → s.kbq = [] →
    (s.arrivals = [] → step s = .next s) ∧
    (∀ later, s.arrivals = [] :: later → step s = .next { s with arrivals := later })) ∧
  (∀ (s t : State) (v : BitVec 8) (c : Byte) (q : List Byte), v = 0x20#8 ∨ v = 0x23#8 →
    s.run = .running → s.hold = none → s.kbq = [] → s.arrivals = [] →
    exec (.trap v) s = .next t →
    step { t with arrivals := [c :: q] } = exec (.trap v) { s with kbq := c :: q })

/-- R163: OUT writes the low byte of R0. -/
def Obligations.OutWritesLowByteOfR0 : Prop :=
  ∀ s : State, ∃ t, exec (.trap 0x21#8) s = .next t ∧
    t.out = s.out ++ [(s.reg 0#3).setWidth 8] ∧ t.reg 7#3 = s.pc ∧ t.cond = s.cond ∧ t.pc = s.pc ∧
    SameRegsBut s t [7#3] ∧ SameMemBut s t [] ∧ t.kbq = s.kbq ∧ SameControl s t

/-- R164: PUTS writes the low byte of each word from the address in R0 up to the first zero word, and
ends there; the words are those `n + 1` reads through the intercept return, in ascending order. -/
def Obligations.PutsWritesWordsUpToFirstZero : Prop :=
  ∀ (s u : State) (n : Nat) (ws : List Word),
    s.readsFrom (n + 1) (s.reg 0#3) = (ws ++ [0x0000#16], u) → (∀ w ∈ ws, w ≠ 0x0000#16) →
    ∃ t, exec (.trap 0x22#8) s = .next t ∧
      t.out = s.out ++ ws.map (fun w : Word => w.setWidth 8) ∧ t.reg 7#3 = s.pc ∧ t.cond = s.cond ∧
      t.pc = s.pc ∧ SameRegsBut s t [7#3] ∧ SameMemBut u t [] ∧ t.kbq = u.kbq ∧ SameControl s t

/-- R167: PUTSP writes two characters a word, the low byte always and then the high byte unless it is
zero, up to the first fully zero word. -/
def Obligations.PutspWritesPackedBytesUpToFirstZero : Prop :=
  ∀ (s u : State) (n : Nat) (ws : List Word),
    s.readsFrom (n + 1) (s.reg 0#3) = (ws ++ [0x0000#16], u) → (∀ w ∈ ws, w ≠ 0x0000#16) →
    ∃ t, exec (.trap 0x24#8) s = .next t ∧
      t.out = s.out ++ ws.flatMap (fun w : Word =>
        if w >>> 8 = 0x0000#16 then [w.setWidth 8] else [w.setWidth 8, (w >>> 8).setWidth 8]) ∧
      t.reg 7#3 = s.pc ∧ t.cond = s.cond ∧ t.pc = s.pc ∧ SameRegsBut s t [7#3] ∧
      SameMemBut u t [] ∧ t.kbq = u.kbq ∧ SameControl s t

/-- The document's test S6 on plain memory: a string of `n` non-zero words that does not meet KBSR,
then a zero word, is written by PUTS and changes no memory. -/
def Obligations.PutsWritesPlainString : Prop :=
  ∀ (s : State) (n : Nat), n < 65536 →
    (∀ k, k ≤ n → s.reg 0#3 + BitVec.ofNat 16 k ≠ 0xFE00#16) →
    (∀ k, k < n → s.stored (s.reg 0#3 + BitVec.ofNat 16 k) ≠ 0x0000#16) →
    s.stored (s.reg 0#3 + BitVec.ofNat 16 n) = 0x0000#16 →
    ∃ t, exec (.trap 0x22#8) s = .next t ∧
      t.out = s.out ++ (List.range n).map (fun k => (s.stored (s.reg 0#3 + BitVec.ofNat 16 k)).setWidth 8) ∧
      SameMemBut s t [] ∧ t.kbq = s.kbq

/-- R171: HALT clears the running flag and writes its notice; R7 and `pc` hold the address after it. -/
def Obligations.HaltStopsAndWritesNotice : Prop :=
  ∀ s : State, ∃ t, exec (.trap 0x25#8) s = .next t ∧
    t.run = .halted ∧ t.out = s.out ++ s.params.haltNotice ∧ t.reg 7#3 = s.pc ∧ t.pc = s.pc ∧
    t.cond = s.cond ∧ SameRegsBut s t [7#3] ∧ SameMemBut s t [] ∧ t.kbq = s.kbq ∧ t.hold = s.hold ∧
    t.arrivals = s.arrivals ∧ t.params = s.params

/-! ### Reserved opcodes and the exception -/

/-- R180, R181: RTI and RES, with any ignored bits, raise UnsupportedOpcode (R185): `run <- Aborted`
and all else unchanged. -/
def Obligations.ReservedOpcodesAbort : Prop :=
  (∀ x : BitVec 12, decode (0b1000#4 ++ x) = .rti ∧ decode (0b1101#4 ++ x) = .res) ∧
  ∀ s : State, exec .rti s = .next { s with run := .aborted } ∧
    exec .res s = .next { s with run := .aborted }

/-- R182, R185: the machine aborts exactly when a step fetches and executes one of the two reserved
opcodes; halting is the HALT service's alone (R31). A held step taken up again fetches nothing (assumption
log 14). -/
def Obligations.RunEndsOnlyByHaltOrReserved : Prop :=
  ∀ s t : State, step s = .next t →
    (t.run = .aborted ↔ s.hold = none ∧ (decode s.deliver.fetch.1).wellFormed = false) ∧
    (t.run = .halted ↔ s.hold = none ∧ decode s.deliver.fetch.1 = .trap 0x25#8)

/-! ### Memory, the keyboard and the flags -/

/-- R55: `MemRead`: a plain lookup everywhere but at KBSR, where it polls the keyboard first. -/
def Obligations.MemoryReadInterceptsKbsrOnly : Prop :=
  ∀ s : State,
    (∀ a, a ≠ 0xFE00#16 → s.memRead a = (s.stored a, s)) ∧
    (s.kbq = [] → let r := s.memRead 0xFE00#16
      r.1 = 0x0000#16 ∧ r.2.stored 0xFE00#16 = 0x0000#16 ∧ r.2.pc = s.pc ∧ r.2.cond = s.cond ∧
      Frame s r.2 [] [0xFE00#16]) ∧
    (∀ c q, s.kbq = c :: q → let r := s.memRead 0xFE00#16
      r.1 = 0x8000#16 ∧ r.2.stored 0xFE00#16 = 0x8000#16 ∧ r.2.stored 0xFE02#16 = 0x00#8 ++ c ∧
      r.2.kbq = q ∧ r.2.pc = s.pc ∧ r.2.cond = s.cond ∧ SameRegsBut s r.2 [] ∧
      SameMemBut s r.2 [0xFE00#16, 0xFE02#16] ∧ r.2.out = s.out ∧ SameControl s r.2)

/-- R57 (a), (b), (e): a second poll with nothing newly typed reads 0x0000 and leaves KBDR; with two
characters pending two polls consume both and the first is lost; a value stored at KBSR is never
returned. -/
def Obligations.RepeatedPollsConsume : Prop :=
  ∀ (s : State) (c d : Byte) (q : List Byte) (v : Word),
    (s.kbq = [c] → let r := (s.memRead 0xFE00#16).2.memRead 0xFE00#16
      r.1 = 0x0000#16 ∧ r.2.stored 0xFE02#16 = 0x00#8 ++ c) ∧
    (s.kbq = c :: d :: q → let r := (s.memRead 0xFE00#16).2.memRead 0xFE00#16
      r.1 = 0x8000#16 ∧ r.2.stored 0xFE02#16 = 0x00#8 ++ d ∧ r.2.kbq = q) ∧
    ((s.memWrite 0xFE00#16 v).memRead 0xFE00#16).1 = (s.memRead 0xFE00#16).1

/-- R57 (c): a step that begins at KBSR polls the keyboard and aborts when a character was pending; with
none it executes a no-operation. `hold` and `arrivals` are the model's fields (assumption logs 14, 8). -/
def Obligations.FetchFromKbsrPolls : Prop :=
  ∀ s : State, s.run = .running → s.hold = none → s.arrivals = [] → s.pc = 0xFE00#16 →
    (∀ c q, s.kbq = c :: q → ∃ t, step s = .next t ∧ t.run = .aborted ∧ t.pc = 0xFE01#16 ∧
      t.stored 0xFE02#16 = 0x00#8 ++ c ∧ t.kbq = q ∧ t.cond = s.cond ∧ SameRegsBut s t [] ∧
      SameMemBut s t [0xFE00#16, 0xFE02#16]) ∧
    (s.kbq = [] → ∃ t, step s = .next t ∧ t.pc = 0xFE01#16 ∧ t.stored 0xFE00#16 = 0x0000#16 ∧
      t.cond = s.cond ∧ Frame s t [] [0xFE00#16])

/-- R60: `MemWrite` replaces the word at every address and does nothing else; R65, which the spec derives:
a read then returns it, everywhere but at KBSR. -/
def Obligations.MemoryWriteReplacesOneWord : Prop :=
  ∀ (s : State) (a v : Word), let t := s.memWrite a v
    t.stored a = v ∧ t.pc = s.pc ∧ t.cond = s.cond ∧ Frame s t [] [a] ∧
    (a ≠ 0xFE00#16 → t.memRead a = (v, t))

/-- R68, which the spec derives: a store to the word the next fetch reads is seen by that fetch. `hold` and
`arrivals` are the model's fields (assumption logs 14, 8). -/
def Obligations.StoreIsSeenByNextFetch : Prop :=
  ∀ (s : State) (v : Word), s.run = .running → s.hold = none → s.arrivals = [] → s.pc ≠ 0xFE00#16 →
    step (s.memWrite s.pc v) = exec (decode v) { s.memWrite s.pc v with pc := s.pc + 1#16 }

/-- R33: `SetCC(i)` sets `cond` from the register's value and writes nothing else. -/
def Obligations.SetCCFollowsRegisterSign : Prop :=
  ∀ (s : State) (i : RegIdx), let t := s.setCC i
    CondFor (s.reg i) t.cond ∧ t.pc = s.pc ∧ Frame s t [] []

/-- R88, R89: `sext_N` for N from 1 to 15, and the document's tests of it. -/
def Obligations.SignExtensionIsTwosComplement : Prop :=
  (∀ n : Nat, 1 ≤ n → n ≤ 15 → ∀ v : BitVec n,
    (sext v).toNat = (if v.toNat < 2 ^ (n - 1) then v.toNat else v.toNat + 65536 - 2 ^ n) ∧
    (sext v = if v.getLsbD (n - 1) then v.setWidth 16 ||| (0xFFFF#16 <<< n) else v.setWidth 16) ∧
    sext ((sext v).extractLsb' 0 n) = sext v) ∧
  sext 0b11111#5 = 0xFFFF#16 ∧ sext 0b111111111#9 = 0xFFFF#16 ∧ sext 0b01111#5 = 0x000F#16

/-- Memory is data in one canonical form: two memories in it that read alike are one list (assumption
log 1). -/
def Obligations.CanonicalMemoriesReadAlikeAreEqual : Prop :=
  ∀ m m' : Memory, m.wf = true → m'.wf = true → (∀ a, m.read a = m'.read a) → m = m'

/-! ### The step -/

/-- R111, R112: a step of a running machine that is not held runs the instruction that the word at `pc`,
read through the intercept, decodes to, with `pc` incremented before it runs; where `pc` is not KBSR the
word is the stored one and the fetch has no side effect. What the host types at the boundary before it:
`HostTypingPrecedesTheStep`. -/
def Obligations.StepRunsTheDecodedInstruction : Prop :=
  ∀ (s : State) (i : Instr), s.run = .running → s.hold = none → s.arrivals = [] →
    (decode (s.memRead s.pc).1 = i →
      step s = exec i { (s.memRead s.pc).2 with pc := s.pc + 1#16 }) ∧
    (s.pc ≠ 0xFE00#16 → decode (s.stored s.pc) = i → step s = exec i { s with pc := s.pc + 1#16 })

/-- R11, R116: what the host types at a step boundary is in the queue before the step and changes
nothing else of it; `arrivals`, the schedule of the typing, is the model's (assumption log 8). -/
def Obligations.HostTypingPrecedesTheStep : Prop :=
  ∀ (s t : State) (cs : List Byte) (later : List (List Byte)),
    s.run = .running → s.arrivals = cs :: later →
    step { s with kbq := s.kbq ++ cs, arrivals := [] } = .next t →
    step s = .next { t with arrivals := later }

/-- R110: a step is taken exactly while `run = Running`; nothing but the two ends stops the machine
(60_exceptions.md R186). Three parts of it are the model's: a state held in GETC or IN with nothing typed,
where R193 holds the step, has itself, but for the schedule, as its next state (assumption log 14); PUTS
and PUTSP end (assumption log 13); a stopped machine answers a fault (assumption log 11). -/
def Obligations.MachineStepsExactlyWhileRunning : Prop :=
  ∀ s : State, (s.run = .running → ∃ t, step s = .next t) ∧
    (s.run = .halted → step s = .fault .halted) ∧ (s.run = .aborted → step s = .fault .aborted)

/-! ### Reset and the invariant -/

/-- R44: the state at reset with `InitMem` in place, and with nothing loaded. -/
def Obligations.ResetStateIsAsSpecified : Prop :=
  (∀ initMem : Memory, let s := State.boot initMem
    (∀ i, s.reg i = 0x0000#16) ∧ s.pc = 0x3000#16 ∧ s.cond = 0x0002#16 ∧ s.run = .running ∧
    (∀ a, s.stored a = initMem.read a.toNat) ∧ s.kbq = [] ∧ s.out = []) ∧
  State.reset = State.boot [] ∧ (∀ a, State.reset.stored a = 0x0000#16)

/-- `State.Inv` holds at reset: `cond` is one-hot (R35, R36), and, the model's own clauses, memory is in
canonical form (assumption log 1) and, should a step be held, the machine is running and R7 is `pc`
(assumption log 14). -/
def Obligations.ResetSatisfiesInvariant : Prop := State.reset.Inv

/-- R35, which the spec derives from R33, R34 and R36: `cond` is one of its three legal values at reset,
and every step keeps it so. -/
def Obligations.CondIsAlwaysOneHot : Prop :=
  State.reset.condOneHot ∧ ∀ s t : State, s.condOneHot → step s = .next t → t.condOneHot

/-- The invariant of every step boundary is kept by every step: R35 with the canonical form of memory
and the order of a held step (assumption logs 1, 14). -/
def Obligations.StepKeepsInvariant : Prop :=
  ∀ s t : State, s.Inv → step s = .next t → t.Inv

/-- Every state that a run reaches from reset, whatever memory was loaded, whatever the host types and
whatever the two texts of R7 are, is in the invariant, and so has exactly one condition code set (R35).
The canonical form, the schedule, the texts' place in State and the hold are the model's (assumption
logs 1, 8, 9, 14). -/
def Obligations.ReachedStatesSatisfyInvariant : Prop :=
  ∀ (m : Memory) (typed : List (List Byte)) (p : Params) (t : State), m.wf = true →
    Reaches { State.boot m with arrivals := typed, params := p } t → t.Inv

/-- R182: a run in which no step fetches a reserved opcode never meets the fatal end. -/
def Obligations.RunWithoutReservedFetchIsSafe : Prop :=
  ∀ s : State, s.run = .running →
    (∀ u, Reaches s u → u.run = .running → u.hold = none →
      (decode u.deliver.fetch.1).wellFormed = true) →
    s.safe

/-! ### Encoding -/

/-- R81, R90, R91: every instruction, with every operand at every value its field admits, is what its
word decodes to. -/
def Obligations.DecodeInvertsEncode : Prop := ∀ i : Instr, decode (encode i) = i

/-- The instruction words that 41_operate.md to 45_reserved.md write out, and R92's, decode to the
instructions named there; the ends of a range of words stand for the range. -/
def Obligations.SpecExampleWordsDecode : Prop :=
  decode 0x1042#16 = .addReg 0 1 2 ∧ decode 0x105A#16 = .addReg 0 1 2 ∧ decode 0x1027#16 = .addImm 0 0 7 ∧
  decode 0x5042#16 = .andReg 0 1 2 ∧ decode 0x5020#16 = .andImm 0 0 0 ∧
  decode 0x927F#16 = .not 1 1 ∧ decode 0x2405#16 = .ld 2 5 ∧ decode 0xA406#16 = .ldi 2 6 ∧
  decode 0x6380#16 = .ldr 1 6 0 ∧ decode 0xEC08#16 = .lea 6 8 ∧ decode 0x3206#16 = .st 1 6 ∧
  decode 0xB602#16 = .sti 3 2 ∧ decode 0x71BF#16 = .str 0 6 0x3F ∧ decode 0x03FD#16 = .br 1 0x1FD ∧
  decode 0x0000#16 = .br 0 0 ∧ decode 0x01FF#16 = .br 0 0x1FF ∧ decode 0x0E00#16 = .br 7 0 ∧
  decode 0x0FFF#16 = .br 7 0x1FF ∧ decode 0xC080#16 = .jmp 2 ∧ decode 0xC1C0#16 = .jmp 7 ∧
  decode 0x4803#16 = .jsr 3 ∧ decode 0x40C0#16 = .jsrr 3 ∧ decode 0x41C0#16 = .jsrr 7 ∧
  decode 0xF020#16 = .trap 0x20 ∧ decode 0xF021#16 = .trap 0x21 ∧ decode 0xF022#16 = .trap 0x22 ∧
  decode 0xF023#16 = .trap 0x23 ∧ decode 0xF024#16 = .trap 0x24 ∧ decode 0xF025#16 = .trap 0x25 ∧
  decode 0xF026#16 = .trap 0x26 ∧ decode 0x8000#16 = .rti ∧ decode 0x8FFF#16 = .rti ∧
  decode 0xD000#16 = .res ∧ decode 0xDFFF#16 = .res

/-- R91: every word is of exactly one of the 19 rows of the opcode table, and it is the row of the
instruction the word decodes to. -/
def Obligations.EveryWordHasExactlyOneRow : Prop :=
  opcodeRows.length = 19 ∧
  ∀ w : Word, ∀ k : Nat, (∃ r, opcodeRows[k]? = some r ∧ r.matches w = true) ↔ k = (decode w).rowIndex

/-- R92: words of one row that differ only in the bits the row ignores are one instruction. -/
def Obligations.IgnoredBitsChangeNothing : Prop :=
  ∀ (r : OpcodeRow) (w w' : Word), r ∈ opcodeRows → r.matches w = true →
    w &&& ~~~ r.ignored = w' &&& ~~~ r.ignored → decode w = decode w'

/-! ### Rules about the whole instruction set -/

/-- R34: only ADD, AND, NOT, LD, LDI, LDR, LEA, GETC and IN set `cond`. -/
def Obligations.OnlyListedInstructionsSetCond : Prop :=
  ∀ (i : Instr) (s t : State), exec i s = .next t → i.setsCond = false → t.cond = s.cond

/-- R34, "only BR reads `cond`": of two runs of any other instruction that differ only in `cond`, both end
alike, with the same new `cond` where the instruction sets it and each with its own where it does not (a
GETC or IN held on an empty queue has not set it yet: `hold`, assumption log 14). -/
def Obligations.OnlyBranchReadsCond : Prop :=
  ∀ (i : Instr) (s t : State) (c : Word), (∀ nzp off, i ≠ .br nzp off) → exec i s = .next t →
    exec i { s with cond := c } = .next { t with cond :=
      if i.setsCond = true ∧ ¬ (i.waitsForKey = true ∧ s.kbq = []) then t.cond else c }

/-- R23: the general registers an instruction writes. -/
def Obligations.RegistersOutsideTheListAreKept : Prop :=
  ∀ (i : Instr) (s t : State), exec i s = .next t → SameRegsBut s t i.writesRegs

/-- R51: the instructions that write memory are ST, STI and STR, at the address they compute, plus the
side effect of a read of KBSR. An instruction that reads no memory when it executes keeps every word but
the one it stores to, KBSR and KBDR among them, and so does a load or STI whose reads are away from KBSR.
What PUTS and PUTSP do to the two words is in the statements about them. -/
def Obligations.OnlyStoresAndPollsWriteMemory : Prop :=
  ∀ (i : Instr) (s t : State), exec i s = .next t →
    (∀ a, i.storeAddr s ≠ some a → a ≠ 0xFE00#16 → a ≠ 0xFE02#16 → t.stored a = s.stored a) ∧
    (i.readsMem = false → ∀ a, i.storeAddr s ≠ some a → t.stored a = s.stored a) ∧
    ((∀ v, i ≠ .trap v) → 0xFE00#16 ∉ i.dataReads s →
      ∀ a, i.storeAddr s ≠ some a → t.stored a = s.stored a)

/-- R27: only BR, JMP, JSR and JSRR change `pc` beyond the fetch increment. -/
def Obligations.OnlyControlInstructionsChangePc : Prop :=
  ∀ (i : Instr) (s t : State), exec i s = .next t → i.writesPc = false → t.pc = s.pc

/-- R13: the output is append-only, and only the services OUT, PUTS, IN, PUTSP and HALT write to it. -/
def Obligations.OutputGrowsOnlyByServices : Prop :=
  ∀ (i : Instr) (s t : State), exec i s = .next t →
    (∃ ys, t.out = s.out ++ ys) ∧ (i.writesOut = false → t.out = s.out)

/-- R11, R70: no instruction adds to the keyboard queue; characters leave it from the head only, and
only by GETC, IN or a read of KBSR. -/
def Obligations.KeyboardQueueOnlyLosesItsHead : Prop :=
  ∀ (i : Instr) (s t : State), exec i s = .next t →
    (∃ used, s.kbq = used ++ t.kbq) ∧ (i.readsMem = false → i.waitsForKey = false → t.kbq = s.kbq)

/-- R116, R187: the host's typing appends to the queue (R11) and changes what a later poll or read finds
and nothing else: an instruction that neither reads memory nor waits for a key does the same whether the
host types a character before it or after it. -/
def Obligations.TypingCommutesWithOtherInstructions : Prop :=
  (∀ (s : State) (c : Byte), s.typeChar c = { s with kbq := s.kbq ++ [c] }) ∧
  (∀ (i : Instr) (s t : State) (c : Byte), i.readsMem = false → i.waitsForKey = false →
    exec i s = .next t → exec i (s.typeChar c) = .next (t.typeChar c))

/-! ### The program image -/

/-- R205, R206: the image with origin `o` and words `ws`, each most significant byte first, puts word
`k` at `o + k`, leaves every other word zero and does not set `pc`. Images that pass 0xFFFF are left out
(R207). -/
def Obligations.ImageIsLoadedAtItsOrigin : Prop :=
  ∀ (o : Word) (ws : List Word), o.toNat + ws.length ≤ 65536 →
    ∃ s, State.bootImages [(o :: ws).flatMap (fun w : Word => [(w >>> 8).setWidth 8, w.setWidth 8])] = some s ∧
      s.pc = 0x3000#16 ∧
      (∀ (k : Nat) (v : Word), ws[k]? = some v → s.mem.read (o.toNat + k) = v) ∧
      (∀ a, a < o.toNat ∨ o.toNat + ws.length ≤ a → s.mem.read a = 0x0000#16)

/-- R204: images are loaded in the order given and later ones overwrite earlier ones. With no image memory
is all zeros; one more image puts its words at its origin and leaves every other word, and `pc`, as the
images before it did. Images that pass 0xFFFF are left out (R207). -/
def Obligations.LaterImagesOverwriteEarlierOnes : Prop :=
  State.bootImages [] = some State.reset ∧
  ∀ (images : List (List Byte)) (s : State) (o : Word) (ws : List Word), o.toNat + ws.length ≤ 65536 →
    State.bootImages images = some s →
    ∃ t, State.bootImages
        (images ++ [(o :: ws).flatMap (fun w : Word => [(w >>> 8).setWidth 8, w.setWidth 8])]) = some t ∧
      t = { s with mem := t.mem } ∧ t.pc = 0x3000#16 ∧
      (∀ (k : Nat) (v : Word), ws[k]? = some v → t.mem.read (o.toNat + k) = v) ∧
      (∀ a, a < o.toNat ∨ o.toNat + ws.length ≤ a → t.mem.read a = s.mem.read a)
end

