-- ==== Sys2Proof/Laws/Encoding.lean ====
section
/-! SUPPORT. A field of a concatenation, and a bit of one: what decoding an encoded word comes down to. Each
is applied with `(extract_high …).trans`, which works on the encoder's sums of widths. -/

namespace Sys2Proof

theorem extract_high {m n : Nat} (x : BitVec m) (y : BitVec n) (start len : Nat) (h : n ≤ start) :
    (x ++ y).extractLsb' start len = x.extractLsb' (start - n) len := by
  ext k hk
  have : ¬ start + k < n := by omega
  simp [BitVec.getLsbD_append, this]
  congr 1; omega

theorem extract_low {m n : Nat} (x : BitVec m) (y : BitVec n) (start len : Nat)
    (h : start + len ≤ n) : (x ++ y).extractLsb' start len = y.extractLsb' start len := by
  ext k hk
  have : start + k < n := by omega
  simp [BitVec.getLsbD_append, this]

theorem extract_all {n : Nat} (x : BitVec n) : x.extractLsb' 0 n = x := by
  ext k hk; simp

theorem getLsbD_high {m n : Nat} (x : BitVec m) (y : BitVec n) (i : Nat) (h : n ≤ i) :
    (x ++ y).getLsbD i = x.getLsbD (i - n) := by
  have : ¬ i < n := by omega
  simp [BitVec.getLsbD_append, this]

theorem getLsbD_low {m n : Nat} (x : BitVec m) (y : BitVec n) (i : Nat) (h : i < n) :
    (x ++ y).getLsbD i = y.getLsbD i := by
  simp [BitVec.getLsbD_append, h]

end Sys2Proof
end

