-- ==== Sys2Proof/Laws/Flags.lean ====
section
/-! SUPPORT. The flag rule (10_state.md R33, R35). -/

namespace Sys2Proof.Machine

/-- Everything the flag computation can answer (R33). -/
theorem condOf_cases (v : Word) :
    (v = 0x0000#16 ∧ condOf v = condZro) ∨
    (v ≠ 0x0000#16 ∧ v.msb = true ∧ condOf v = condNeg) ∨
    (v ≠ 0x0000#16 ∧ v.msb = false ∧ condOf v = condPos) := by
  unfold condOf
  by_cases h : v = 0x0000#16
  · simp [h]
  · cases hm : v.msb <;> simp [h]

/-- The flag computation answers one of the three legal values (R35). -/
theorem condOf_legal (v : Word) : condOf v = condPos ∨ condOf v = condZro ∨ condOf v = condNeg := by
  obtain ⟨-, e⟩ | ⟨-, -, e⟩ | ⟨-, -, e⟩ := condOf_cases v <;> simp [e]

end Sys2Proof.Machine
end

