-- ==== Sys2Proof/Laws/Memory.lean ====
section
/-! SUPPORT. The laws of the memory array (20_memory.md R50, R60, R65): a read after a write, that a write
leaves every other address alone, that every operation keeps the canonical form, and that equal
memories in that form are equal lists. -/

namespace Sys2Proof.Machine.Memory

@[simp] theorem read_nil (a : Nat) : read [] a = unlistedWord := rfl

theorem read_cons (c : Nat × Word) (m : Memory) (a : Nat) :
    read (c :: m) a = if c.1 = a then c.2 else read m a := rfl

theorem read_erase (m : Memory) (a b : Nat) :
    (m.erase a).read b = if b = a then unlistedWord else m.read b := by
  induction m with
  | nil => simp [erase]
  | cons c m ih =>
    unfold erase at ih ⊢
    rw [List.filter_cons]
    by_cases hc : c.1 = a
    · have : ¬ (c.1 != a) = true := by simp [hc]
      rw [if_neg this, ih, read_cons]
      by_cases hb : b = a
      · simp [hb]
      · have : ¬ c.1 = b := fun h => hb (h ▸ hc)
        simp [hb, this]
    · have : (c.1 != a) = true := by simp [hc]
      rw [if_pos this, read_cons, read_cons, ih]
      by_cases hb : b = a
      · subst hb; simp [hc]
      · simp [hb]

/-- An entry put among entries none of which is for its address. -/
theorem read_insert (m : Memory) (a b : Nat) (v : Word) (h : ∀ c ∈ m, c.1 ≠ a) :
    (m.insert a v).read b = if b = a then v else m.read b := by
  induction m with
  | nil =>
    by_cases hb : b = a
    · simp [insert, read_cons, hb]
    · have : ¬ a = b := fun e => hb e.symm
      simp [insert, read_cons, hb, this]
  | cons c m ih =>
    have hc : c.1 ≠ a := h c (by simp)
    have hm := ih (fun d hd => h d (by simp [hd]))
    unfold insert
    split
    · by_cases hb : b = a
      · simp [read_cons, hb]
      · have : ¬ a = b := fun e => hb e.symm
        simp [read_cons, hb, this]
    · rw [read_cons, hm, read_cons]
      by_cases hb : b = a
      · subst hb; simp [hc]
      · simp [hb]

theorem erase_ne (m : Memory) (a : Nat) : ∀ c ∈ m.erase a, c.1 ≠ a := by
  intro c hc
  have := (List.mem_filter.mp hc).2
  simpa using this

/-- Read after write, at the address written and at every other one (R60, R65). -/
theorem read_write (m : Memory) (a b : Nat) (v : Word) :
    (m.write a v).read b = if b = a then v else m.read b := by
  unfold write
  split
  · next h => rw [read_erase, h]
  · rw [read_insert _ _ _ _ (erase_ne m a), read_erase]
    by_cases hb : b = a <;> simp [hb]

@[simp] theorem read_write_self (m : Memory) (a : Nat) (v : Word) : (m.write a v).read a = v := by
  simp [read_write]

/-! ### The canonical form -/

theorem wfFrom_mono {lo lo' : Nat} {m : Memory} (h : lo' ≤ lo) (hm : wfFrom lo m = true) :
    wfFrom lo' m = true := by
  cases m with
  | nil => rfl
  | cons c m =>
    simp only [wfFrom, Bool.and_eq_true, decide_eq_true_eq] at hm ⊢
    exact ⟨⟨⟨Nat.le_trans h hm.1.1.1, hm.1.1.2⟩, hm.1.2⟩, hm.2⟩

theorem erase_wfFrom (m : Memory) (a lo : Nat) (hm : wfFrom lo m = true) :
    wfFrom lo (m.erase a) = true := by
  induction m generalizing lo with
  | nil => rfl
  | cons c m ih =>
    simp only [wfFrom, Bool.and_eq_true, decide_eq_true_eq] at hm
    have hrec := ih (c.1 + 1) hm.2
    unfold erase at hrec ⊢
    rw [List.filter_cons]
    split
    · simp only [wfFrom, Bool.and_eq_true, decide_eq_true_eq]
      exact ⟨hm.1, hrec⟩
    · exact wfFrom_mono (by omega) hrec

theorem insert_wfFrom (m : Memory) (a lo : Nat) (v : Word) (hm : wfFrom lo m = true) (hlo : lo ≤ a)
    (ha : a < 65536) (hv : v ≠ unlistedWord) (hne : ∀ c ∈ m, c.1 ≠ a) :
    wfFrom lo (m.insert a v) = true := by
  induction m generalizing lo with
  | nil => simp [insert, wfFrom, hlo, ha, hv]
  | cons c m ih =>
    simp only [wfFrom, Bool.and_eq_true, decide_eq_true_eq] at hm
    have hc : c.1 ≠ a := hne c (by simp)
    unfold insert
    split
    · simp only [wfFrom, Bool.and_eq_true, decide_eq_true_eq]
      exact ⟨⟨⟨hlo, ha⟩, hv⟩, ⟨⟨⟨by omega, hm.1.1.2⟩, hm.1.2⟩, hm.2⟩⟩
    · simp only [wfFrom, Bool.and_eq_true, decide_eq_true_eq]
      exact ⟨hm.1, ih (c.1 + 1) hm.2 (by omega) (fun d hd => hne d (by simp [hd]))⟩

/-- A write keeps the canonical form. -/
theorem write_wf (m : Memory) (a : Nat) (v : Word) (hm : m.wf = true) (ha : a < 65536) :
    (m.write a v).wf = true := by
  unfold write
  split
  · exact erase_wfFrom m a 0 hm
  · next hv => exact insert_wfFrom _ a 0 v (erase_wfFrom m a 0 hm) (Nat.zero_le _) ha hv (erase_ne m a)

@[simp] theorem nil_wf : wf [] = true := rfl

end Sys2Proof.Machine.Memory
end

