-- ==== Sys2Proof/Laws/State.lean ====
section
/-! SUPPORT. One lemma per field and update of the state, true by rfl, and the laws of `x[i]`: no proof
need unfold a record update. -/

namespace Sys2Proof.Machine.State

@[simp] theorem setReg_regs (s : State) (i : RegIdx) (v : Word) : (s.setReg i v).regs = s.regs.set i.toNat v := rfl
@[simp] theorem setReg_pc (s : State) (i : RegIdx) (v : Word) : (s.setReg i v).pc = s.pc := rfl
@[simp] theorem setReg_cond (s : State) (i : RegIdx) (v : Word) : (s.setReg i v).cond = s.cond := rfl
@[simp] theorem setReg_run (s : State) (i : RegIdx) (v : Word) : (s.setReg i v).run = s.run := rfl
@[simp] theorem setReg_mem (s : State) (i : RegIdx) (v : Word) : (s.setReg i v).mem = s.mem := rfl
@[simp] theorem setReg_kbq (s : State) (i : RegIdx) (v : Word) : (s.setReg i v).kbq = s.kbq := rfl
@[simp] theorem setReg_out (s : State) (i : RegIdx) (v : Word) : (s.setReg i v).out = s.out := rfl
@[simp] theorem setReg_hold (s : State) (i : RegIdx) (v : Word) : (s.setReg i v).hold = s.hold := rfl
@[simp] theorem setReg_arrivals (s : State) (i : RegIdx) (v : Word) : (s.setReg i v).arrivals = s.arrivals := rfl
@[simp] theorem setReg_params (s : State) (i : RegIdx) (v : Word) : (s.setReg i v).params = s.params := rfl
@[simp] theorem setReg_stored (s : State) (i : RegIdx) (v : Word) (a : Word) : (s.setReg i v).stored a = s.stored a := rfl

@[simp] theorem setPc_regs (s : State) (v : Word) : (s.setPc v).regs = s.regs := rfl
@[simp] theorem setPc_pc (s : State) (v : Word) : (s.setPc v).pc = v := rfl
@[simp] theorem setPc_cond (s : State) (v : Word) : (s.setPc v).cond = s.cond := rfl
@[simp] theorem setPc_run (s : State) (v : Word) : (s.setPc v).run = s.run := rfl
@[simp] theorem setPc_mem (s : State) (v : Word) : (s.setPc v).mem = s.mem := rfl
@[simp] theorem setPc_kbq (s : State) (v : Word) : (s.setPc v).kbq = s.kbq := rfl
@[simp] theorem setPc_out (s : State) (v : Word) : (s.setPc v).out = s.out := rfl
@[simp] theorem setPc_hold (s : State) (v : Word) : (s.setPc v).hold = s.hold := rfl
@[simp] theorem setPc_arrivals (s : State) (v : Word) : (s.setPc v).arrivals = s.arrivals := rfl
@[simp] theorem setPc_params (s : State) (v : Word) : (s.setPc v).params = s.params := rfl
@[simp] theorem setPc_reg (s : State) (v : Word) (j : RegIdx) : (s.setPc v).reg j = s.reg j := rfl
@[simp] theorem setPc_stored (s : State) (v : Word) (a : Word) : (s.setPc v).stored a = s.stored a := rfl

@[simp] theorem setCond_regs (s : State) (v : Word) : (s.setCond v).regs = s.regs := rfl
@[simp] theorem setCond_pc (s : State) (v : Word) : (s.setCond v).pc = s.pc := rfl
@[simp] theorem setCond_cond (s : State) (v : Word) : (s.setCond v).cond = v := rfl
@[simp] theorem setCond_run (s : State) (v : Word) : (s.setCond v).run = s.run := rfl
@[simp] theorem setCond_mem (s : State) (v : Word) : (s.setCond v).mem = s.mem := rfl
@[simp] theorem setCond_kbq (s : State) (v : Word) : (s.setCond v).kbq = s.kbq := rfl
@[simp] theorem setCond_out (s : State) (v : Word) : (s.setCond v).out = s.out := rfl
@[simp] theorem setCond_hold (s : State) (v : Word) : (s.setCond v).hold = s.hold := rfl
@[simp] theorem setCond_arrivals (s : State) (v : Word) : (s.setCond v).arrivals = s.arrivals := rfl
@[simp] theorem setCond_params (s : State) (v : Word) : (s.setCond v).params = s.params := rfl
@[simp] theorem setCond_reg (s : State) (v : Word) (j : RegIdx) : (s.setCond v).reg j = s.reg j := rfl
@[simp] theorem setCond_stored (s : State) (v : Word) (a : Word) : (s.setCond v).stored a = s.stored a := rfl

@[simp] theorem setRun_regs (s : State) (r : RunState) : (s.setRun r).regs = s.regs := rfl
@[simp] theorem setRun_pc (s : State) (r : RunState) : (s.setRun r).pc = s.pc := rfl
@[simp] theorem setRun_cond (s : State) (r : RunState) : (s.setRun r).cond = s.cond := rfl
@[simp] theorem setRun_run (s : State) (r : RunState) : (s.setRun r).run = r := rfl
@[simp] theorem setRun_mem (s : State) (r : RunState) : (s.setRun r).mem = s.mem := rfl
@[simp] theorem setRun_kbq (s : State) (r : RunState) : (s.setRun r).kbq = s.kbq := rfl
@[simp] theorem setRun_out (s : State) (r : RunState) : (s.setRun r).out = s.out := rfl
@[simp] theorem setRun_hold (s : State) (r : RunState) : (s.setRun r).hold = s.hold := rfl
@[simp] theorem setRun_arrivals (s : State) (r : RunState) : (s.setRun r).arrivals = s.arrivals := rfl
@[simp] theorem setRun_params (s : State) (r : RunState) : (s.setRun r).params = s.params := rfl
@[simp] theorem setRun_reg (s : State) (r : RunState) (j : RegIdx) : (s.setRun r).reg j = s.reg j := rfl
@[simp] theorem setRun_stored (s : State) (r : RunState) (a : Word) : (s.setRun r).stored a = s.stored a := rfl

@[simp] theorem setKbq_regs (s : State) (q : List Byte) : (s.setKbq q).regs = s.regs := rfl
@[simp] theorem setKbq_pc (s : State) (q : List Byte) : (s.setKbq q).pc = s.pc := rfl
@[simp] theorem setKbq_cond (s : State) (q : List Byte) : (s.setKbq q).cond = s.cond := rfl
@[simp] theorem setKbq_run (s : State) (q : List Byte) : (s.setKbq q).run = s.run := rfl
@[simp] theorem setKbq_mem (s : State) (q : List Byte) : (s.setKbq q).mem = s.mem := rfl
@[simp] theorem setKbq_kbq (s : State) (q : List Byte) : (s.setKbq q).kbq = q := rfl
@[simp] theorem setKbq_out (s : State) (q : List Byte) : (s.setKbq q).out = s.out := rfl
@[simp] theorem setKbq_hold (s : State) (q : List Byte) : (s.setKbq q).hold = s.hold := rfl
@[simp] theorem setKbq_arrivals (s : State) (q : List Byte) : (s.setKbq q).arrivals = s.arrivals := rfl
@[simp] theorem setKbq_params (s : State) (q : List Byte) : (s.setKbq q).params = s.params := rfl
@[simp] theorem setKbq_reg (s : State) (q : List Byte) (j : RegIdx) : (s.setKbq q).reg j = s.reg j := rfl
@[simp] theorem setKbq_stored (s : State) (q : List Byte) (a : Word) : (s.setKbq q).stored a = s.stored a := rfl

@[simp] theorem setHold_regs (s : State) (h : Option Hold) : (s.setHold h).regs = s.regs := rfl
@[simp] theorem setHold_pc (s : State) (h : Option Hold) : (s.setHold h).pc = s.pc := rfl
@[simp] theorem setHold_cond (s : State) (h : Option Hold) : (s.setHold h).cond = s.cond := rfl
@[simp] theorem setHold_run (s : State) (h : Option Hold) : (s.setHold h).run = s.run := rfl
@[simp] theorem setHold_mem (s : State) (h : Option Hold) : (s.setHold h).mem = s.mem := rfl
@[simp] theorem setHold_kbq (s : State) (h : Option Hold) : (s.setHold h).kbq = s.kbq := rfl
@[simp] theorem setHold_out (s : State) (h : Option Hold) : (s.setHold h).out = s.out := rfl
@[simp] theorem setHold_hold (s : State) (h : Option Hold) : (s.setHold h).hold = h := rfl
@[simp] theorem setHold_arrivals (s : State) (h : Option Hold) : (s.setHold h).arrivals = s.arrivals := rfl
@[simp] theorem setHold_params (s : State) (h : Option Hold) : (s.setHold h).params = s.params := rfl
@[simp] theorem setHold_reg (s : State) (h : Option Hold) (j : RegIdx) : (s.setHold h).reg j = s.reg j := rfl
@[simp] theorem setHold_stored (s : State) (h : Option Hold) (a : Word) : (s.setHold h).stored a = s.stored a := rfl

@[simp] theorem store_regs (s : State) (a v : Word) : (s.store a v).regs = s.regs := rfl
@[simp] theorem store_pc (s : State) (a v : Word) : (s.store a v).pc = s.pc := rfl
@[simp] theorem store_cond (s : State) (a v : Word) : (s.store a v).cond = s.cond := rfl
@[simp] theorem store_run (s : State) (a v : Word) : (s.store a v).run = s.run := rfl
@[simp] theorem store_mem (s : State) (a v : Word) : (s.store a v).mem = s.mem.write a.toNat v := rfl
@[simp] theorem store_kbq (s : State) (a v : Word) : (s.store a v).kbq = s.kbq := rfl
@[simp] theorem store_out (s : State) (a v : Word) : (s.store a v).out = s.out := rfl
@[simp] theorem store_hold (s : State) (a v : Word) : (s.store a v).hold = s.hold := rfl
@[simp] theorem store_arrivals (s : State) (a v : Word) : (s.store a v).arrivals = s.arrivals := rfl
@[simp] theorem store_params (s : State) (a v : Word) : (s.store a v).params = s.params := rfl
@[simp] theorem store_reg (s : State) (a v : Word) (j : RegIdx) : (s.store a v).reg j = s.reg j := rfl

@[simp] theorem outChar_regs (s : State) (c : Byte) : (s.outChar c).regs = s.regs := rfl
@[simp] theorem outChar_pc (s : State) (c : Byte) : (s.outChar c).pc = s.pc := rfl
@[simp] theorem outChar_cond (s : State) (c : Byte) : (s.outChar c).cond = s.cond := rfl
@[simp] theorem outChar_run (s : State) (c : Byte) : (s.outChar c).run = s.run := rfl
@[simp] theorem outChar_mem (s : State) (c : Byte) : (s.outChar c).mem = s.mem := rfl
@[simp] theorem outChar_kbq (s : State) (c : Byte) : (s.outChar c).kbq = s.kbq := rfl
@[simp] theorem outChar_out (s : State) (c : Byte) : (s.outChar c).out = s.out ++ [c] := rfl
@[simp] theorem outChar_hold (s : State) (c : Byte) : (s.outChar c).hold = s.hold := rfl
@[simp] theorem outChar_arrivals (s : State) (c : Byte) : (s.outChar c).arrivals = s.arrivals := rfl
@[simp] theorem outChar_params (s : State) (c : Byte) : (s.outChar c).params = s.params := rfl
@[simp] theorem outChar_reg (s : State) (c : Byte) (j : RegIdx) : (s.outChar c).reg j = s.reg j := rfl
@[simp] theorem outChar_stored (s : State) (c : Byte) (a : Word) : (s.outChar c).stored a = s.stored a := rfl

/-- Read after write of a register (10_state.md R22). -/
@[simp] theorem setReg_reg_self (s : State) (i : RegIdx) (v : Word) : (s.setReg i v).reg i = v := by
  simp [reg, setReg]

/-- A write leaves every other register alone (10_state.md R22). -/
theorem setReg_reg_other (s : State) (i j : RegIdx) (v : Word) (h : j ≠ i) :
    (s.setReg i v).reg j = s.reg j := by
  have : i.toNat ≠ j.toNat := fun e => h (BitVec.eq_of_toNat_eq e.symm)
  simp [reg, setReg, this]

theorem setReg_reg (s : State) (i j : RegIdx) (v : Word) :
    (s.setReg i v).reg j = if j = i then v else s.reg j := by
  split
  · next h => subst h; simp
  · next h => exact setReg_reg_other s i j v h

/-! ### Addresses -/

@[simp] theorem pcRel9_eq (s : State) (off : BitVec 9) : s.pcRel9 off = s.pc + sext off := rfl
@[simp] theorem pcRel11_eq (s : State) (off : BitVec 11) : s.pcRel11 off = s.pc + sext off := rfl
@[simp] theorem baseRel6_eq (s : State) (i : RegIdx) (off : BitVec 6) :
    s.baseRel6 i off = s.reg i + sext off := rfl

/-! ### `SetCC` -/

@[simp] theorem setCC_regs (s : State) (i : RegIdx) : (s.setCC i).regs = s.regs := rfl
@[simp] theorem setCC_pc (s : State) (i : RegIdx) : (s.setCC i).pc = s.pc := rfl
@[simp] theorem setCC_cond (s : State) (i : RegIdx) : (s.setCC i).cond = condOf (s.reg i) := rfl
@[simp] theorem setCC_run (s : State) (i : RegIdx) : (s.setCC i).run = s.run := rfl
@[simp] theorem setCC_mem (s : State) (i : RegIdx) : (s.setCC i).mem = s.mem := rfl
@[simp] theorem setCC_kbq (s : State) (i : RegIdx) : (s.setCC i).kbq = s.kbq := rfl
@[simp] theorem setCC_out (s : State) (i : RegIdx) : (s.setCC i).out = s.out := rfl
@[simp] theorem setCC_hold (s : State) (i : RegIdx) : (s.setCC i).hold = s.hold := rfl
@[simp] theorem setCC_arrivals (s : State) (i : RegIdx) : (s.setCC i).arrivals = s.arrivals := rfl
@[simp] theorem setCC_params (s : State) (i : RegIdx) : (s.setCC i).params = s.params := rfl
@[simp] theorem setCC_reg (s : State) (i j : RegIdx) : (s.setCC i).reg j = s.reg j := rfl
@[simp] theorem setCC_stored (s : State) (i : RegIdx) (a : Word) : (s.setCC i).stored a = s.stored a := rfl

@[simp] theorem setRegCC_regs (s : State) (i : RegIdx) (v : Word) : (s.setRegCC i v).regs = s.regs.set i.toNat v := rfl
@[simp] theorem setRegCC_pc (s : State) (i : RegIdx) (v : Word) : (s.setRegCC i v).pc = s.pc := rfl
@[simp] theorem setRegCC_cond (s : State) (i : RegIdx) (v : Word) : (s.setRegCC i v).cond = condOf v := by
  simp [setRegCC]
@[simp] theorem setRegCC_run (s : State) (i : RegIdx) (v : Word) : (s.setRegCC i v).run = s.run := rfl
@[simp] theorem setRegCC_mem (s : State) (i : RegIdx) (v : Word) : (s.setRegCC i v).mem = s.mem := rfl
@[simp] theorem setRegCC_kbq (s : State) (i : RegIdx) (v : Word) : (s.setRegCC i v).kbq = s.kbq := rfl
@[simp] theorem setRegCC_out (s : State) (i : RegIdx) (v : Word) : (s.setRegCC i v).out = s.out := rfl
@[simp] theorem setRegCC_hold (s : State) (i : RegIdx) (v : Word) : (s.setRegCC i v).hold = s.hold := rfl
@[simp] theorem setRegCC_arrivals (s : State) (i : RegIdx) (v : Word) : (s.setRegCC i v).arrivals = s.arrivals := rfl
@[simp] theorem setRegCC_params (s : State) (i : RegIdx) (v : Word) : (s.setRegCC i v).params = s.params := rfl
@[simp] theorem setRegCC_reg_self (s : State) (i : RegIdx) (v : Word) : (s.setRegCC i v).reg i = v := by
  simp [setRegCC]
theorem setRegCC_reg_other (s : State) (i j : RegIdx) (v : Word) (h : j ≠ i) :
    (s.setRegCC i v).reg j = s.reg j := setReg_reg_other s i j v h
theorem setRegCC_reg (s : State) (i j : RegIdx) (v : Word) :
    (s.setRegCC i v).reg j = if j = i then v else s.reg j := setReg_reg s i j v
@[simp] theorem setRegCC_stored (s : State) (i : RegIdx) (v a : Word) : (s.setRegCC i v).stored a = s.stored a := rfl

end Sys2Proof.Machine.State
end

