-- ==== Sys2Proof/Laws/Ops.lean ====
section
/-! SUPPORT. One lemma for what each shared operation can do, cited instead of unfolding it: `M[a]`,
`Out`, the host's typing, `KbRead`, the keyboard poll and `MemRead`. -/

namespace Sys2Proof.Machine.State

/-- Read after write of a stored word, and that every other word is as before (20_memory.md R60, R65). -/
theorem store_stored (s : State) (a b v : Word) :
    (s.store a v).stored b = if b = a then v else s.stored b := by
  simp only [stored, store_mem, Memory.read_write]
  by_cases h : b = a
  · simp [h]
  · have : ¬ b.toNat = a.toNat := fun e => h (BitVec.eq_of_toNat_eq e)
    simp [h, this]

@[simp] theorem store_stored_self (s : State) (a v : Word) : (s.store a v).stored a = v := by
  simp [store_stored]

theorem store_stored_other (s : State) (a b v : Word) (h : b ≠ a) :
    (s.store a v).stored b = s.stored b := by
  simp [store_stored, h]

theorem store_wf (s : State) (a v : Word) (h : s.mem.wf = true) : (s.store a v).mem.wf = true :=
  Memory.write_wf s.mem a.toNat v h a.isLt

/-- `Out` of several characters appends them and changes nothing else (00_scope.md R13). -/
theorem outChars_eq (s : State) (cs : List Byte) : s.outChars cs = { s with out := s.out ++ cs } := by
  induction cs generalizing s with
  | nil => simp [outChars]
  | cons c cs ih =>
    have := ih (s.outChar c)
    simp only [outChars, List.foldl_cons] at this ⊢
    rw [this]
    simp [outChar]

/-- The host's typing changes the queue and the schedule alone (40_step_cycle.md R116). -/
theorem deliver_eq (s : State) :
    s.deliver = { s with kbq := s.kbq ++ s.arrivals.headD [], arrivals := s.arrivals.tail } := by
  cases s with
  | mk regs pc cond run mem kbq out hold arrivals params =>
    cases arrivals <;> simp [deliver]

/-- `KbRead()` with a character pending removes the head of the queue alone (00_scope.md R11). -/
theorem kbRead_cons (s : State) (c : Byte) (q : List Byte) (h : s.kbq = c :: q) :
    s.kbRead = some (c, s.setKbq q) := by
  simp [kbRead, h]

theorem kbRead_nil (s : State) (h : s.kbq = []) : s.kbRead = none := by
  simp [kbRead, h]

/-- The poll of a read of KBSR (20_memory.md R55). -/
theorem kbPoll_nil (s : State) (h : s.kbq = []) : s.kbPoll = s.store kbsrAddr kbsrIdle := by
  simp [kbPoll, kbRead_nil s h]

theorem kbPoll_cons (s : State) (c : Byte) (q : List Byte) (h : s.kbq = c :: q) :
    s.kbPoll = ((s.setKbq q).store kbsrAddr kbsrReady).store kbdrAddr (c.setWidth 16) := by
  simp [kbPoll, kbRead_cons s c q h]

/-- Everything a read of memory can do: a plain lookup, a poll that finds nothing, or a poll that moves
a character to KBDR (20_memory.md R55, R70). -/
theorem memRead_cases (s : State) (a : Word) :
    (a ≠ kbsrAddr ∧ s.memRead a = (s.stored a, s)) ∨
    (a = kbsrAddr ∧ s.kbq = [] ∧ s.memRead a = (kbsrIdle, s.store kbsrAddr kbsrIdle)) ∨
    (a = kbsrAddr ∧ ∃ c q, s.kbq = c :: q ∧
      s.memRead a =
        (kbsrReady, ((s.setKbq q).store kbsrAddr kbsrReady).store kbdrAddr (c.setWidth 16))) := by
  by_cases h : a = kbsrAddr
  · subst h
    cases hq : s.kbq with
    | nil => exact .inr (.inl ⟨rfl, rfl, by simp [memRead, kbPoll_nil s hq]⟩)
    | cons c q =>
      refine .inr (.inr ⟨rfl, c, q, rfl, ?_⟩)
      have : kbsrAddr ≠ kbdrAddr := by decide
      simp [memRead, kbPoll_cons s c q hq, store_stored_other _ _ _ _ this]
  · exact .inl ⟨h, by simp [memRead, h]⟩

theorem memRead_plain (s : State) (a : Word) (h : a ≠ kbsrAddr) : s.memRead a = (s.stored a, s) := by
  simp [memRead, h]

/-- A read looks at memory and the keyboard queue alone, and changes no other part of the state. -/
theorem memRead_congr (s u : State) (a : Word) (hm : u.mem = s.mem) (hq : u.kbq = s.kbq) :
    u.memRead a =
      ((s.memRead a).1, { u with mem := (s.memRead a).2.mem, kbq := (s.memRead a).2.kbq }) := by
  have hs : ∀ b, u.stored b = s.stored b := fun b => by simp [stored, hm]
  obtain ⟨h, e⟩ | ⟨h, hn, e⟩ | ⟨h, c, q, hc, e⟩ := s.memRead_cases a
  · rw [e, memRead_plain u a h, hs]
    simp [← hm, ← hq]
  · obtain ⟨h', -⟩ | ⟨-, -, e'⟩ | ⟨-, c, q, hc, -⟩ := u.memRead_cases a
    · exact absurd h h'
    · rw [e, e']
      simp [store, hm, ← hq]
    · rw [hq, hn] at hc; cases hc
  · obtain ⟨h', -⟩ | ⟨-, hn, -⟩ | ⟨-, d, q', hd, e'⟩ := u.memRead_cases a
    · exact absurd h h'
    · rw [hq, hc] at hn; cases hn
    · rw [hq, hc] at hd
      cases hd
      rw [e, e']
      simp [store, setKbq, hm]

/-- What a read of memory leaves alone. -/
theorem memRead_same (s : State) (a : Word) :
    (s.memRead a).2.regs = s.regs ∧ (s.memRead a).2.pc = s.pc ∧ (s.memRead a).2.cond = s.cond ∧
    (s.memRead a).2.run = s.run ∧ (s.memRead a).2.out = s.out ∧ (s.memRead a).2.hold = s.hold ∧
    (s.memRead a).2.arrivals = s.arrivals ∧ (s.memRead a).2.params = s.params := by
  obtain ⟨-, e⟩ | ⟨-, -, e⟩ | ⟨-, c, q, -, e⟩ := s.memRead_cases a <;> simp [e]

@[simp] theorem memRead_regs (s : State) (a : Word) : (s.memRead a).2.regs = s.regs :=
  (s.memRead_same a).1
@[simp] theorem memRead_pc (s : State) (a : Word) : (s.memRead a).2.pc = s.pc :=
  (s.memRead_same a).2.1
@[simp] theorem memRead_cond (s : State) (a : Word) : (s.memRead a).2.cond = s.cond :=
  (s.memRead_same a).2.2.1
@[simp] theorem memRead_run (s : State) (a : Word) : (s.memRead a).2.run = s.run :=
  (s.memRead_same a).2.2.2.1
@[simp] theorem memRead_out (s : State) (a : Word) : (s.memRead a).2.out = s.out :=
  (s.memRead_same a).2.2.2.2.1
@[simp] theorem memRead_hold (s : State) (a : Word) : (s.memRead a).2.hold = s.hold :=
  (s.memRead_same a).2.2.2.2.2.1
@[simp] theorem memRead_arrivals (s : State) (a : Word) : (s.memRead a).2.arrivals = s.arrivals :=
  (s.memRead_same a).2.2.2.2.2.2.1
@[simp] theorem memRead_params (s : State) (a : Word) : (s.memRead a).2.params = s.params :=
  (s.memRead_same a).2.2.2.2.2.2.2
@[simp] theorem memRead_reg (s : State) (a : Word) (i : RegIdx) : (s.memRead a).2.reg i = s.reg i := by
  simp [reg]

/-- A read changes no stored word but KBSR and KBDR (20_memory.md R70). -/
theorem memRead_stored (s : State) (a b : Word) (h : b ≠ kbsrAddr) (h' : b ≠ kbdrAddr) :
    (s.memRead a).2.stored b = s.stored b := by
  obtain ⟨-, e⟩ | ⟨-, -, e⟩ | ⟨-, c, q, -, e⟩ := s.memRead_cases a <;>
    simp [e, store_stored, h, h']

/-- A read only takes characters from the head of the queue. -/
theorem memRead_kbq (s : State) (a : Word) : ∃ used, s.kbq = used ++ (s.memRead a).2.kbq := by
  obtain ⟨-, e⟩ | ⟨-, -, e⟩ | ⟨-, c, q, hq, e⟩ := s.memRead_cases a
  · exact ⟨[], by simp [e]⟩
  · exact ⟨[], by simp [e]⟩
  · exact ⟨[c], by simp [e, hq]⟩

theorem memRead_wf (s : State) (a : Word) (h : s.mem.wf = true) : (s.memRead a).2.mem.wf = true := by
  obtain ⟨-, e⟩ | ⟨-, -, e⟩ | ⟨-, c, q, -, e⟩ := s.memRead_cases a
  · simpa [e] using h
  · simpa [e] using store_wf s _ _ h
  · rw [e]; exact store_wf _ _ _ (store_wf _ _ _ h)

end Sys2Proof.Machine.State
end

