-- ==== Sys2Proof/Laws/Walk.lean ====
section
/-! SUPPORT. The walk of PUTS and PUTSP over a string (44_trap.md R164, R167): what it leaves alone, and
that it ends within `walkFuel` reads (assumption log 13). -/

namespace Sys2Proof.Machine

open State

/-- What a walk changes: the output grows, the queue loses characters from its head, KBSR and KBDR may
change, and everything else is as before (R169). -/
theorem stringWalk_same (chars : Word → List Byte) (fuel : Nat) (a : Word) (s t : State)
    (h : stringWalk chars fuel a s = some t) :
    t.regs = s.regs ∧ t.pc = s.pc ∧ t.cond = s.cond ∧ t.run = s.run ∧ t.hold = s.hold ∧
    t.arrivals = s.arrivals ∧ t.params = s.params ∧ (s.mem.wf = true → t.mem.wf = true) ∧
    (∀ b, b ≠ kbsrAddr → b ≠ kbdrAddr → t.stored b = s.stored b) ∧
    (∃ used, s.kbq = used ++ t.kbq) ∧ (∃ ys, t.out = s.out ++ ys) := by
  induction fuel generalizing a s with
  | zero => simp [stringWalk] at h
  | succ fuel ih =>
    obtain ⟨u, hu⟩ := s.memRead_kbq a
    simp only [stringWalk] at h
    split at h
    · cases h
      exact ⟨by simp, by simp, by simp, by simp, by simp, by simp, by simp, s.memRead_wf a,
        fun b => s.memRead_stored a b, ⟨u, hu⟩, ⟨[], by simp⟩⟩
    · have := ih _ _ h
      rw [outChars_eq] at this
      obtain ⟨h1, h2, h3, h4, h5, h6, h7, h8, h9, ⟨u', hu'⟩, ⟨ys, h11⟩⟩ := this
      refine ⟨by simpa using h1, by simpa using h2, by simpa using h3, by simpa using h4,
        by simpa using h5, by simpa using h6, by simpa using h7, fun hw => h8 (s.memRead_wf a hw),
        fun b hb hb' => (h9 b hb hb').trans (s.memRead_stored a b hb hb'),
        ⟨u ++ u', ?_⟩, ⟨chars (s.memRead a).1 ++ ys, ?_⟩⟩
      · rw [hu, List.append_assoc]; exact congrArg (u ++ ·) hu'
      · rw [h11]; simp

/-- The words still to read before KBSR, at the next address. -/
theorem kbsr_distance (a : Word) (h : a ≠ kbsrAddr) :
    (kbsrAddr - (a + 1#16)).toNat + 1 = (kbsrAddr - a).toNat := by
  unfold kbsrAddr at *
  bv_omega

/-- One read short of KBSR uses one unit of fuel. -/
theorem walkFuel_plain (a : Word) (s t : State) (h : a ≠ kbsrAddr) (hq : t.kbq = s.kbq) :
    walkFuel (a + 1#16) t + 1 = walkFuel a s := by
  have := kbsr_distance a h
  unfold walkFuel
  rw [hq]
  omega

/-- A read of KBSR that takes a character uses one unit too: one character pays for one round of
memory. -/
theorem walkFuel_kbsr (s t : State) (c : Byte) (q : List Byte) (hs : s.kbq = c :: q) (ht : t.kbq = q) :
    walkFuel (kbsrAddr + 1#16) t + 1 = walkFuel kbsrAddr s := by
  have h1 : (kbsrAddr - (kbsrAddr + 1#16)).toNat = 65535 := by decide
  have h2 : (kbsrAddr - kbsrAddr).toNat = 0 := by decide
  unfold walkFuel
  rw [h1, h2, hs, ht, List.length_cons]
  omega

/-- Every walk with `walkFuel` reads ends: by the time it has passed KBSR once for each pending
character, a read of KBSR finds none and is zero. -/
theorem stringWalk_ends (chars : Word → List Byte) (fuel : Nat) (a : Word) (s : State)
    (h : walkFuel a s ≤ fuel) : (stringWalk chars fuel a s).isSome = true := by
  induction fuel generalizing a s with
  | zero =>
    unfold walkFuel at h
    omega
  | succ fuel ih =>
    simp only [stringWalk]
    split
    · rfl
    · next hw =>
      apply ih
      obtain ⟨ha, e⟩ | ⟨-, -, e⟩ | ⟨ha, c, q, hq, e⟩ := s.memRead_cases a
      · have := walkFuel_plain a s (s.outChars (chars (s.stored a))) ha (by simp [outChars_eq])
        simp only [e]
        omega
      · simp [e, kbsrIdle] at hw
      · subst ha
        simp only [e]
        have := walkFuel_kbsr s ((((s.setKbq q).store kbsrAddr kbsrReady).store kbdrAddr
          (c.setWidth 16)).outChars (chars kbsrReady)) c q hq (by simp [outChars_eq])
        omega

end Sys2Proof.Machine
end

