-- ==== Sys2Proof/Laws/Exec.lean ====
section
/-! SUPPORT. What the shared operations of the meanings can do, said once: a load, a key read, the string
services, TRAP's dispatcher, and one step. -/

namespace Sys2Proof.Machine

open State

/-! ### Flags, register writes, stores and loads, with their frames -/

theorem condFor_condOf (v : Word) : CondFor v (condOf v) := by
  simp only [CondFor, condOf, condZro, condNeg, condPos, BitVec.msb_eq_getLsbD_last]

/-- How every flag-setting instruction ends (10_state.md R34): its frame. -/
theorem frame_setRegCC (s : State) (i : RegIdx) (v : Word) : Frame s (s.setRegCC i v) [i] [] :=
  ⟨fun r h => setRegCC_reg_other s i r v (by simpa using h), fun _ _ => rfl, rfl, rfl, rfl, rfl, rfl, rfl⟩

theorem frame_store (s : State) (a v : Word) : Frame s (s.store a v) [] [a] :=
  ⟨fun _ _ => rfl, fun b h => store_stored_other s a b v (by simpa using h), rfl, rfl, rfl, rfl, rfl, rfl⟩

/-- A write of `x[i]` keeps every other register and every word (10_state.md R22). -/
theorem frame_setReg (s : State) (i : RegIdx) (v : Word) : Frame s (s.setReg i v) [i] [] :=
  ⟨fun r h => setReg_reg_other s i r v (by simpa using h), fun _ _ => rfl, rfl, rfl, rfl, rfl, rfl, rfl⟩

/-- What a load does besides the register and the flags is what its read does. -/
theorem loadFrom_same (s : State) (dr : RegIdx) (ea : Word) :
    (s.loadFrom dr ea).reg dr = (s.memRead ea).1 ∧ CondFor (s.memRead ea).1 (s.loadFrom dr ea).cond ∧
    (s.loadFrom dr ea).pc = s.pc ∧ SameRegsBut s (s.loadFrom dr ea) [dr] ∧
    (s.loadFrom dr ea).mem = (s.memRead ea).2.mem ∧ (s.loadFrom dr ea).kbq = (s.memRead ea).2.kbq ∧
    (s.loadFrom dr ea).out = s.out ∧ SameControl s (s.loadFrom dr ea) := by
  unfold loadFrom
  refine ⟨by simp, by simpa using condFor_condOf _, by simp, fun r h => ?_, rfl, rfl, by simp,
    by simp, by simp, by simp, by simp⟩
  have h : r ≠ dr := by simpa using h
  simp [setRegCC_reg_other _ _ _ _ h]

/-! ### The link register and the key reads -/

@[simp] theorem State.link_reg (s : State) (i : RegIdx) :
    s.link.reg i = if i = 7#3 then s.pc else s.reg i := s.setReg_reg linkReg i s.pc

@[simp] theorem State.link_same (s : State) :
    s.link.pc = s.pc ∧ s.link.cond = s.cond ∧ s.link.run = s.run ∧ s.link.mem = s.mem ∧
    s.link.kbq = s.kbq ∧ s.link.out = s.out ∧ s.link.hold = s.hold ∧
    s.link.arrivals = s.arrivals ∧ s.link.params = s.params :=
  ⟨rfl, rfl, rfl, rfl, rfl, rfl, rfl, rfl, rfl⟩

/-- A key read with a character pending (44_trap.md R162, R166). -/
theorem State.readKey_cons (s : State) (h : Hold) (c : Byte) (q : List Byte) (hq : s.kbq = c :: q) :
    s.readKey h = ((s.setKbq q).setHold none).finishRead h c := by
  simp [readKey, kbRead_cons s c q hq]

/-- A key read with none pending is held (44_trap.md R170). -/
theorem State.readKey_nil (s : State) (h : Hold) (hq : s.kbq = []) :
    s.readKey h = s.setHold (some h) := by
  simp [readKey, kbRead_nil s hq]

/-! ### The string services -/

/-- PUTS and PUTSP take a next state, the end of their walk. -/
theorem writeString_next (chars : Word → List Byte) (s : State) :
    ∃ t, stringWalk chars (walkFuel (s.reg serviceReg) s) (s.reg serviceReg) s = some t ∧
      writeString chars s = .next t := by
  obtain ⟨t, ht⟩ := Option.isSome_iff_exists.mp
    (stringWalk_ends chars _ (s.reg serviceReg) s (Nat.le_refl _))
  exact ⟨t, ht, by simp [writeString, ht]⟩

/-! ### The dispatcher of TRAP -/

/-- Everything the trap dispatcher can select (44_trap.md R161). -/
theorem serviceOf_cases (v : BitVec 8) :
    (v = 0x20#8 ∧ serviceOf v = some .getc) ∨ (v = 0x21#8 ∧ serviceOf v = some .out) ∨
    (v = 0x22#8 ∧ serviceOf v = some .puts) ∨ (v = 0x23#8 ∧ serviceOf v = some .input) ∨
    (v = 0x24#8 ∧ serviceOf v = some .putsp) ∨ (v = 0x25#8 ∧ serviceOf v = some .halt) ∨
    ((v < 0x20#8 ∨ 0x25#8 < v) ∧ serviceOf v = none) := by
  revert v; decide

/-! ### One step -/

theorem step_running (s : State) (h : s.run = .running) : step s = stepRunning s.deliver := by
  simp [step, h]

theorem stepRunning_free (s : State) (h : s.hold = none) :
    stepRunning s = exec (decode s.fetch.1) s.fetch.2 := by
  simp [stepRunning, h]

theorem stepRunning_held (s : State) (k : Hold) (h : s.hold = some k) :
    stepRunning s = .next (s.readKey k) := by
  simp [stepRunning, h, resume]

end Sys2Proof.Machine
end

