-- ==== Sys2Proof/Laws/Load.lean ====
section
/-! SUPPORT. What the loader's parts do (70_reset_and_hazards.md R204, R205): the words of a file, words laid
from an origin, and one image after others. -/

namespace Sys2Proof.Machine

/-- The bytes of a list of words, each most significant byte first, are read as those words (R205). -/
theorem bigEndianWords_bytes (ws : List Word) :
    bigEndianWords (ws.flatMap (fun w : Word => [(w >>> 8).setWidth 8, w.setWidth 8])) = some ws := by
  induction ws with
  | nil => rfl
  | cons w ws ih =>
    have : ((w >>> 8).setWidth 8 ++ w.setWidth 8 : Word) = w := by
      apply BitVec.eq_of_getLsbD_eq
      intro k hk
      rw [BitVec.getLsbD_append]
      by_cases h : k < 8
      · simp [h]
      · have : 8 + (k - 8) = k := by omega
        simp [h, this]
        omega
    simp [bigEndianWords, ih, this]

/-- Words that fit below 65536 are laid one an address from `a` on, and no other word changes (R205). -/
theorem Memory.loadWords_fits (ws : List Word) (m : Memory) (a : Nat) (h : a + ws.length ≤ 65536) :
    ∃ m', m.loadWords a ws = some m' ∧ (∀ (k : Nat) (v : Word), ws[k]? = some v → m'.read (a + k) = v) ∧
      ∀ b, b < a ∨ a + ws.length ≤ b → m'.read b = m.read b := by
  induction ws generalizing m a with
  | nil => exact ⟨m, rfl, by simp, fun _ _ => rfl⟩
  | cons w ws ih =>
    rw [List.length_cons] at h
    obtain ⟨m', e, h1, h2⟩ := ih (m.write a w) (a + 1) (by omega)
    refine ⟨m', by simp [loadWords, e]; omega, fun k v hk => ?_, fun b hb => ?_⟩
    · cases k with
      | zero =>
        obtain rfl : w = v := by simpa using hk
        rw [h2 _ (by omega)]
        simp
      | succ k =>
        rw [← h1 k v (by simpa using hk)]
        congr 1
        omega
    · rw [List.length_cons] at hb
      rw [h2 b (by omega), read_write, if_neg (by omega)]

/-- The last image is loaded over what the images before it made (R204). -/
theorem Memory.loadImages_append (m : Memory) (images : List (List Byte)) (image : List Byte) :
    m.loadImages (images ++ [image]) = (m.loadImages images).bind (fun m' => m'.loadImage image) := by
  induction images generalizing m with
  | nil => simp [loadImages]
  | cons i images ih =>
    simp only [List.cons_append, loadImages]
    cases m.loadImage i <;> simp [ih]

end Sys2Proof.Machine
end

