-- ==== Sys2Proof/Laws/PerInstr.lean ====
section
/-! SUPPORT. The families of facts about each instruction as syntax, one lemma per constructor.
`OpcodeField`: the encoder puts the row's opcode number of 30_encoding.md R90 at bits [15:12]. -/

namespace Sys2Proof

/-- The number of an instruction's opcode (R90). -/
def Instr.opcodeNumber : Instr → BitVec 4
  | .br _ _ => 0x0
  | .addReg _ _ _ => 0x1
  | .addImm _ _ _ => 0x1
  | .ld _ _ => 0x2
  | .st _ _ => 0x3
  | .jsr _ => 0x4
  | .jsrr _ => 0x4
  | .andReg _ _ _ => 0x5
  | .andImm _ _ _ => 0x5
  | .ldr _ _ _ => 0x6
  | .str _ _ _ => 0x7
  | .rti => 0x8
  | .not _ _ => 0x9
  | .ldi _ _ => 0xA
  | .sti _ _ => 0xB
  | .jmp _ => 0xC
  | .res => 0xD
  | .lea _ _ => 0xE
  | .trap _ => 0xF

end Sys2Proof

namespace Sys2Proof.Laws.OpcodeField

def Statement (i : Instr) : Prop := fieldOpcode (encode i) = i.opcodeNumber

theorem br a b : Statement (.br a b) := by
  unfold Statement fieldOpcode encode
  repeat (refine (extract_high _ _ _ _ (by decide)).trans ?_)
  rfl
theorem addReg a b c : Statement (.addReg a b c) := by
  unfold Statement fieldOpcode encode
  repeat (refine (extract_high _ _ _ _ (by decide)).trans ?_)
  rfl
theorem addImm a b c : Statement (.addImm a b c) := by
  unfold Statement fieldOpcode encode
  repeat (refine (extract_high _ _ _ _ (by decide)).trans ?_)
  rfl
theorem ld a b : Statement (.ld a b) := by
  unfold Statement fieldOpcode encode
  repeat (refine (extract_high _ _ _ _ (by decide)).trans ?_)
  rfl
theorem st a b : Statement (.st a b) := by
  unfold Statement fieldOpcode encode
  repeat (refine (extract_high _ _ _ _ (by decide)).trans ?_)
  rfl
theorem jsr a : Statement (.jsr a) := by
  unfold Statement fieldOpcode encode
  repeat (refine (extract_high _ _ _ _ (by decide)).trans ?_)
  rfl
theorem jsrr a : Statement (.jsrr a) := by
  unfold Statement fieldOpcode encode
  repeat (refine (extract_high _ _ _ _ (by decide)).trans ?_)
  rfl
theorem andReg a b c : Statement (.andReg a b c) := by
  unfold Statement fieldOpcode encode
  repeat (refine (extract_high _ _ _ _ (by decide)).trans ?_)
  rfl
theorem andImm a b c : Statement (.andImm a b c) := by
  unfold Statement fieldOpcode encode
  repeat (refine (extract_high _ _ _ _ (by decide)).trans ?_)
  rfl
theorem ldr a b c : Statement (.ldr a b c) := by
  unfold Statement fieldOpcode encode
  repeat (refine (extract_high _ _ _ _ (by decide)).trans ?_)
  rfl
theorem str a b c : Statement (.str a b c) := by
  unfold Statement fieldOpcode encode
  repeat (refine (extract_high _ _ _ _ (by decide)).trans ?_)
  rfl
theorem rti  : Statement (.rti ) := by
  unfold Statement fieldOpcode encode
  repeat (refine (extract_high _ _ _ _ (by decide)).trans ?_)
  rfl
theorem not a b : Statement (.not a b) := by
  unfold Statement fieldOpcode encode
  repeat (refine (extract_high _ _ _ _ (by decide)).trans ?_)
  rfl
theorem ldi a b : Statement (.ldi a b) := by
  unfold Statement fieldOpcode encode
  repeat (refine (extract_high _ _ _ _ (by decide)).trans ?_)
  rfl
theorem sti a b : Statement (.sti a b) := by
  unfold Statement fieldOpcode encode
  repeat (refine (extract_high _ _ _ _ (by decide)).trans ?_)
  rfl
theorem jmp a : Statement (.jmp a) := by
  unfold Statement fieldOpcode encode
  repeat (refine (extract_high _ _ _ _ (by decide)).trans ?_)
  rfl
theorem res  : Statement (.res ) := by
  unfold Statement fieldOpcode encode
  repeat (refine (extract_high _ _ _ _ (by decide)).trans ?_)
  rfl
theorem lea a b : Statement (.lea a b) := by
  unfold Statement fieldOpcode encode
  repeat (refine (extract_high _ _ _ _ (by decide)).trans ?_)
  rfl
theorem trap a : Statement (.trap a) := by
  unfold Statement fieldOpcode encode
  repeat (refine (extract_high _ _ _ _ (by decide)).trans ?_)
  rfl

end Sys2Proof.Laws.OpcodeField
end

