-- ==== Sys2Proof/Tests/Slice0.lean ====
section
/-! SUPPORT. The author's own tests. Every expected value is from the spec: the vectors V-*, S* and P* of
95_test_vectors.md, or the word written out from the formats of 30_encoding.md. The second part, the
theorems `witness_*`, shows for each statement with hypotheses a concrete state and operands that meet
them all, for each clause of it, at the ends of a range where there is one. -/

namespace Sys2Proof.Tests

open Sys2Proof.Machine

/-- The next state of an outcome. -/
def nextOf : Host.Outcome State Fault Refusal → Option State
  | .next t => some t
  | .fault _ => none
  | .refused _ => none

/-- The reset state with `pc`, some stored words and some registers set. -/
def stateOf (pc : Word) (mem : List (Word × Word)) (regs : List (RegIdx × Word)) : State :=
  regs.foldl (fun s r => s.setReg r.1 r.2)
    (mem.foldl (fun s c => s.store c.1 c.2) { State.reset with pc := pc })

/-- One step with the word `w` at `pc`. -/
def stepAt (pc w : Word) (mem : List (Word × Word)) (regs : List (RegIdx × Word)) : Option State :=
  nextOf (step (stateOf pc ((pc, w) :: mem) regs))

/-- The same with characters pending. -/
def stepKeys (pc w : Word) (mem : List (Word × Word)) (regs : List (RegIdx × Word)) (q : List Byte) :
    Option State :=
  nextOf (step { stateOf pc ((pc, w) :: mem) regs with kbq := q })

/-! ### Well-formedness: the two ill-formed instructions are refused -/

theorem test_wf_rti : (decode 0x8FFF#16).wellFormed = false := by decide
theorem test_wf_res : (decode 0xDABC#16).wellFormed = false := by decide
theorem test_wf_add : (decode 0x1042#16).wellFormed = true := by decide

/-! ### Decoding: words written out from R81 and R90 -/

theorem test_decode_br : decode 0b0000_001_111111101#16 = .br 0b001 0x1FD := by decide
theorem test_decode_addReg : decode 0b0001_000_001_0_11_010#16 = .addReg 0 1 2 := by decide
theorem test_decode_addImm : decode 0b0001_011_100_1_10000#16 = .addImm 3 4 0x10 := by decide
theorem test_decode_ld : decode 0b0010_010_000000101#16 = .ld 2 5 := by decide
theorem test_decode_st : decode 0b0011_001_000000110#16 = .st 1 6 := by decide
theorem test_decode_jsr : decode 0b0100_1_10000000001#16 = .jsr 0x401 := by decide
theorem test_decode_jsrr : decode 0b0100_0_11_011_111111#16 = .jsrr 3 := by decide
theorem test_decode_andReg : decode 0b0101_000_001_0_00_010#16 = .andReg 0 1 2 := by decide
theorem test_decode_andImm : decode 0b0101_001_010_1_10000#16 = .andImm 1 2 0x10 := by decide
theorem test_decode_ldr : decode 0b0110_001_110_000000#16 = .ldr 1 6 0 := by decide
theorem test_decode_str : decode 0b0111_000_110_111111#16 = .str 0 6 0x3F := by decide
theorem test_decode_rti : decode 0b1000_101010101010#16 = .rti := by decide
theorem test_decode_not : decode 0b1001_001_001_111111#16 = .not 1 1 := by decide
theorem test_decode_ldi : decode 0b1010_010_000000110#16 = .ldi 2 6 := by decide
theorem test_decode_sti : decode 0b1011_011_000000010#16 = .sti 3 2 := by decide
theorem test_decode_jmp : decode 0b1100_111_010_111111#16 = .jmp 2 := by decide
theorem test_decode_res : decode 0b1101_101010111100#16 = .res := by decide
theorem test_decode_lea : decode 0b1110_110_000001000#16 = .lea 6 8 := by decide
theorem test_decode_trap : decode 0b1111_1111_00100101#16 = .trap 0x25 := by decide

/-- The encoder's words of P3 and P1, as the listings have them. -/
theorem test_encode_words :
    encode (.not 1 1) = 0x927F#16 ∧ encode (.jmp 7) = 0xC1C0#16 ∧ encode (.jsr 3) = 0x4803#16 ∧
    encode (.andImm 0 0 0) = 0x5020#16 ∧ encode (.trap 0x25) = 0xF025#16 := by decide

theorem test_decodeTableWord : decodeTableWord 16 0x1027 = some (.addImm 0 0 7) := by decide

/-! ### Sign extension: V-SX-* -/

theorem test_sext_5_6 :
    sext 0x0F#5 = 0x000F#16 ∧ sext 0x10#5 = 0xFFF0#16 ∧ sext 0x1F#6 = 0x001F#16 ∧
    sext 0x20#6 = 0xFFE0#16 := by decide
theorem test_sext_9_11 :
    sext 0x0FF#9 = 0x00FF#16 ∧ sext 0x100#9 = 0xFF00#16 ∧ sext 0x3FF#11 = 0x03FF#16 ∧
    sext 0x400#11 = 0xFC00#16 := by decide

/-! ### The operate instructions: V-OP-* -/

/-- V-OP-1: 0x7FFF + 1 wraps to NEG. -/
theorem test_addReg_wraps :
    (stepAt 0x3000 0x1042 [] [(1, 0x7FFF), (2, 0x0001)]).map (fun t => (t.reg 0, t.cond, t.pc)) =
      some (0x8000, 4, 0x3001) := by decide
/-- V-OP-3b: the destination is also both sources. -/
theorem test_addReg_same :
    (stepAt 0x3000 0x1241 [] [(1, 0x8000)]).map (fun t => (t.reg 1, t.cond)) = some (0, 2) := by decide
/-- V-OP-5: -16, and the source keeps its value. -/
theorem test_addImm_negative :
    (stepAt 0x3000 0x1730 [] [(4, 0x0010)]).map (fun t => (t.reg 3, t.reg 4, t.cond)) =
      some (0, 0x0010, 2) := by decide
/-- V-OP-9a: the first source is the field at [8:6]. -/
theorem test_addImm_sourceField :
    (stepAt 0x3000 0x1561 [] [(0, 1), (1, 2), (2, 4), (3, 8), (4, 16), (5, 32), (6, 64), (7, 128)]).map
      (fun t => t.reg 2) = some 0x0021 := by decide
/-- V-OP-13. -/
theorem test_andReg :
    (stepAt 0x3000 0x5042 [] [(1, 0xFF0F), (2, 0x0FF0)]).map (fun t => (t.reg 0, t.cond)) =
      some (0x0F00, 1) := by decide
/-- V-OP-8a: the mask is sign-extended. -/
theorem test_andImm_mask :
    (stepAt 0x3000 0x52B0 [] [(2, 0xABCD)]).map (fun t => (t.reg 1, t.cond)) =
      some (0xABC0, 4) := by decide
/-- V-OP-9b. -/
theorem test_andImm_sourceField :
    (stepAt 0x3000 0x557F [] [(0, 1), (1, 2), (2, 4), (3, 8), (4, 16), (5, 32), (6, 64), (7, 128)]).map
      (fun t => t.reg 2) = some 0x0020 := by decide
/-- V-OP-11b: the ignored bits are zeros. -/
theorem test_not_ignoredBits :
    (stepAt 0x3000 0x9240 [] [(1, 0x0005)]).map (fun t => (t.reg 1, t.cond)) = some (0xFFFA, 4) := by
  decide

/-! ### Data movement: V-DM-* -/

/-- V-DM-2: the address wraps below 0x0000. -/
theorem test_ld_wraps :
    (stepAt 0x0000 0x23FE [(0xFFFF, 0x1234)] []).map (fun t => (t.reg 1, t.cond)) =
      some (0x1234, 1) := by decide
/-- V-DM-3b: offset -256. -/
theorem test_ld_far :
    (stepAt 0x3000 0x2100 [(0x2F01, 0x8000)] []).map (fun t => (t.reg 0, t.cond)) =
      some (0x8000, 4) := by decide
/-- The example of R132. -/
theorem test_ldi :
    (stepAt 0x3004 0xA406 [(0x300B, 0x300A), (0x300A, 0xFFFB)] []).map (fun t => (t.reg 2, t.cond)) =
      some (0xFFFB, 4) := by decide
/-- V-KB-2 reached by an LDI whose pointer word holds 0xFE00. -/
theorem test_ldi_polls :
    (stepKeys 0x3000 0xA004 [(0x3005, 0xFE00)] [] [0x41]).map
      (fun t => (t.reg 0, t.cond, t.stored 0xFE00, t.stored 0xFE02, t.kbq)) =
      some (0x8000, 4, 0x8000, 0x0041, []) := by decide
/-- V-DM-5: the base register is also the destination. -/
theorem test_ldr_same :
    (stepAt 0x3000 0x6240 [] [(1, 0x4000)]).map (fun t => (t.reg 1, t.cond)) = some (0, 2) := by decide
/-- V-DM-4a: offset -1 from 0x0000. -/
theorem test_ldr_wraps :
    (stepAt 0x3000 0x607F [(0xFFFF, 0x0007)] []).map (fun t => (t.reg 0, t.cond)) = some (7, 1) := by
  decide
/-- V-DM-6a. -/
theorem test_lea_neg :
    (stepAt 0x7FFF 0xE000 [] []).map (fun t => (t.reg 0, t.cond)) = some (0x8000, 4) := by decide
/-- V-DM-7: no memory access, so no poll. -/
theorem test_lea_kbsr :
    (stepKeys 0xFDFE 0xE001 [] [] [0x41]).map (fun t => (t.reg 0, t.kbq, t.stored 0xFE00)) =
      some (0xFE00, [0x41], 0) := by decide
/-- V-DM-9: the next instruction is overwritten. -/
theorem test_st_next :
    (stepAt 0x3000 0x3200 [] [(1, 0xF025)]).map (fun t => (t.stored 0x3001, t.pc, t.run)) =
      some (0xF025, 0x3001, .running) := by decide
/-- V-DM-12: storing zero sets no flag. -/
theorem test_st_keepsCond :
    (nextOf (step { stateOf 0x3003 [(0x3003, 0x3206)] [] with cond := 4 })).map
      (fun t => (t.stored 0x300A, t.cond)) = some (0, 4) := by decide
/-- V-DM-10: the pointer word points at itself. -/
theorem test_sti_self :
    (stepAt 0x3000 0xB602 [(0x3003, 0x3003)] [(3, 0x1234)]).map (fun t => t.stored 0x3003) =
      some 0x1234 := by decide
/-- The example of R136. -/
theorem test_sti :
    (stepAt 0x3000 0xB602 [(0x3003, 0x4000)] [(3, 0x1234)]).map
      (fun t => (t.stored 0x4000, t.stored 0x3003)) = some (0x1234, 0x4000) := by decide
/-- The example of R137: offset -1. -/
theorem test_str :
    (stepAt 0x3000 0x71BF [] [(6, 0x4000), (0, 0x00FF)]).map (fun t => t.stored 0x3FFF) =
      some 0x00FF := by decide
/-- V-DM-11: the stored register is the base. -/
theorem test_str_same :
    (stepAt 0x3000 0x7240 [] [(1, 0x5000)]).map (fun t => t.stored 0x5000) = some 0x5000 := by decide

/-! ### Control: V-CT-* -/

/-- V-CT-1, every mask against every `cond`: the table, rows 000 to 111, columns NEG, ZRO, POS. -/
theorem test_br_table :
    (List.range 8).map (fun m => [0x4#16, 0x2#16, 0x1#16].map (fun c =>
      { State.reset with cond := c }.branchTaken (BitVec.ofNat 3 m))) =
    [[false, false, false], [false, false, true], [false, true, false], [false, true, true],
     [true, false, false], [true, false, true], [true, true, false], [true, true, true]] := by decide
/-- V-CT-4: the target wraps; the unconditional form is taken at reset's `cond`. -/
theorem test_br_wraps : (stepAt 0x0000 0x0FFE [] []).map (fun t => t.pc) = some 0xFFFF := by decide
/-- V-CT-7c: ignored bits set. -/
theorem test_jmp : (stepAt 0x3000 0xCEBF [] [(2, 0x4000)]).map (fun t => t.pc) = some 0x4000 := by decide
/-- V-CT-7b. -/
theorem test_ret : (stepAt 0x3000 0xC1C0 [] [(7, 0x3003)]).map (fun t => (t.pc, t.reg 7)) =
    some (0x3003, 0x3003) := by decide
/-- V-CT-8a: offset -1024. -/
theorem test_jsr_back : (stepAt 0x3000 0x4C00 [] []).map (fun t => (t.reg 7, t.pc)) =
    some (0x3001, 0x2C01) := by decide
/-- V-CT-9: `JSRR R7` goes on at the next instruction. -/
theorem test_jsrr_r7 : (stepAt 0x3000 0x41C0 [] [(7, 0x5000)]).map (fun t => (t.reg 7, t.pc)) =
    some (0x3001, 0x3001) := by decide
/-- V-CT-10b: ignored bits set. -/
theorem test_jsrr : (stepAt 0x3010 0x46FF [] [(3, 0x5000)]).map (fun t => (t.reg 7, t.pc)) =
    some (0x3011, 0x5000) := by decide

/-! ### TRAP: V-TR-* -/

/-- V-TR-1c: a character is zero-extended. -/
theorem test_trap_getc :
    (stepKeys 0x3000 0xF020 [] [] [0xFF, 0x62]).map (fun t => (t.reg 0, t.cond, t.reg 7, t.kbq, t.out)) =
      some (0x00FF, 1, 0x3001, [0x62], []) := by decide
/-- V-TR-9: held, then a character comes. -/
theorem test_trap_getc_held :
    ((stepAt 0x3000 0xF020 [] []).bind (fun t => nextOf (step { t with arrivals := [[0x61]] }))).map
      (fun t => (t.reg 0, t.reg 7, t.pc, t.hold)) = some (0x0061, 0x3001, 0x3001, none) := by decide
/-- V-TR-2. -/
theorem test_trap_out :
    (stepAt 0x3000 0xF021 [] [(0, 0x1241)]).map (fun t => (t.out, t.reg 0, t.reg 7)) =
      some ([0x41], 0x1241, 0x3001) := by decide
/-- V-TR-3d: the string wraps past 0xFFFF. -/
theorem test_trap_puts_wraps :
    (stepAt 0x3000 0xF022 [(0xFFFF, 0x0041), (0x0000, 0x0042)] [(0, 0xFFFF)]).map (fun t => t.out) =
      some [0x41, 0x42] := by decide
/-- V-TR-3b: 0x0100 is no terminator. -/
theorem test_trap_puts_lowBytes :
    (stepAt 0x3000 0xF022 [(0x4000, 0x0141), (0x4001, 0x0100)] [(0, 0x4000)]).map (fun t => t.out) =
      some [0x41, 0x00] := by decide
/-- V-TR-5. -/
theorem test_trap_in :
    (stepKeys 0x3000 0xF023 [] [] [0x78]).map (fun t => (t.out, t.reg 0, t.cond, t.kbq)) =
      some (defaultInPrompt ++ [0x78], 0x0078, 1, []) := by decide
/-- V-TR-4b and V-TR-4c in one string: a zero low byte is written, a zero high byte is not. -/
theorem test_trap_putsp :
    (stepAt 0x3000 0xF024 [(0x4000, 0x4100), (0x4001, 0x0041), (0x4002, 0x4342)] [(0, 0x4000)]).map
      (fun t => t.out) = some [0x00, 0x41, 0x41, 0x42, 0x43] := by decide
/-- V-TR-8: ignored bits set. -/
theorem test_trap_halt :
    (stepAt 0x3000 0xFF25 [] []).map (fun t => (t.run, t.reg 7, t.pc, t.out)) =
      some (.halted, 0x3001, 0x3001, defaultHaltNotice) := by decide
/-- V-TR-7a. -/
theorem test_trap_unknown :
    (nextOf (step { stateOf 0x3000 [(0x3000, 0xF026)] [(0, 0x1234)] with cond := 4 })).map
      (fun t => (t.reg 7, t.reg 0, t.cond, t.pc, t.out)) = some (0x3001, 0x1234, 4, 0x3001, []) := by
  decide

/-! ### The reserved opcodes: V-RS-* -/

theorem test_rti : (stepAt 0x3000 0x8FFF [] []).map (fun t => (t.run, t.pc)) =
    some (.aborted, 0x3001) := by decide
theorem test_res : (stepAt 0x3000 0xDABC [] []).map (fun t => (t.run, t.pc)) =
    some (.aborted, 0x3001) := by decide

/-! ### The keyboard: V-KB-* -/

/-- V-KB-4: two reads consume both, the first is lost. -/
theorem test_kb_twice :
    let t := ({ State.reset with kbq := [0x41, 0x42] }.memRead 0xFE00).2.memRead 0xFE00
    t.1 = 0x8000#16 ∧ t.2.stored 0xFE02 = 0x0042#16 ∧ t.2.kbq = [] := by decide
/-- V-KB-9b: a HALT stored at KBSR is never fetched. -/
theorem test_kb_fetch :
    (stepAt 0xFE00 0xF025 [] []).map (fun t => (t.run, t.pc, t.stored 0xFE00)) =
      some (.running, 0xFE01, 0) := by decide

/-! ### The machine as a whole -/

/-- `withFetchWord` lays the instruction that the first step after reset runs: the example of R121. -/
theorem test_withFetchWord :
    (nextOf (step (State.reset.withFetchWord 16 0x1027))).map (fun t => (t.reg 0, t.cond)) =
      some (7, 1) := by decide

/-- The image of P1, bytes as 95_test_vectors.md gives them, and its last state: S9. -/
theorem test_program_p1 :
    (State.bootImages [[0x30, 0x00, 0x50, 0x20, 0x10, 0x27, 0xF0, 0x25]]).map (fun s =>
      match Sys2Proof.core.run 3 s with
      | .next t => some (t.reg 0, t.reg 7, t.pc, t.run, t.cond)
      | .fault _ => none
      | .refused _ => none) =
    some (some (0x0007, 0x3003, 0x3003, .halted, 1)) := by decide

/-- R207: an odd number of bytes is no image. -/
theorem test_image_odd : State.bootImages [[0x30, 0x00, 0x50]] = none := by decide

/-! ## Witnesses of the statements' hypotheses -/

/-- The state at 0x3000 in which most witnesses run: two words of a string, registers that name it. -/
def wState : State := stateOf 0x3001 [(0x4000, 0x0048), (0x4001, 0x6900)] [(0, 0x4000), (2, 0x8001)]

/-- A held state: GETC has run with nothing typed. -/
def wHeld : State := { State.reset.setReg 7 0x3000 with hold := some .getc }

/-- Outcomes are compared through their next states. -/
theorem next_of_nextOf {o : Host.Outcome State Fault Refusal} {t : State} (h : nextOf o = some t) :
    o = .next t := by
  cases o with
  | next s => exact congrArg _ (Option.some.inj h)
  | fault r => cases h
  | refused r => cases h

theorem exists_next {o : Host.Outcome State Fault Refusal} (h : (nextOf o).isSome = true) :
    ∃ t, o = .next t := by
  obtain ⟨t, ht⟩ := Option.isSome_iff_exists.mp h
  exact ⟨t, next_of_nextOf ht⟩

theorem exists_next_run {o : Host.Outcome State Fault Refusal} {r : RunState}
    (h : (nextOf o).map (fun t => t.run) = some r) : ∃ t, o = .next t ∧ t.run = r := by
  obtain ⟨t, ht, hr⟩ := Option.map_eq_some_iff.mp h
  exact ⟨t, next_of_nextOf ht, hr⟩

theorem witness_LdLoadsPcRelative :
    wState.pc + sext 0x000#9 ≠ 0xFE00#16 ∧
    (stateOf 0xFE00 [] []).pc + sext 0x1FF#9 ≠ 0xFE00#16 ∧
    (stateOf 0xFE01 [] []).pc + sext 0x1FF#9 = 0xFE00#16 := by decide

theorem witness_LdiLoadsThroughPointer :
    let s := stateOf 0x3001 [(0x3002, 0x4000)] []
    s.pc + sext 1#9 ≠ 0xFE00#16 ∧ s.stored (s.pc + sext 1#9) ≠ 0xFE00#16 := by decide

theorem witness_LdrLoadsBaseRelative : wState.reg 0 + sext 0x3F#6 ≠ 0xFE00#16 := by decide

theorem witness_StiStoresThroughPointer : wState.pc + sext 2#9 ≠ 0xFE00#16 := by decide

/-- A mask that meets `cond` and one that does not, in a state whose `cond` is one-hot. -/
theorem witness_BrBranchesOnConditionMask :
    (∃ k, k < 3 ∧ (0b010#3).getLsbD k = true ∧ State.reset.cond.getLsbD k = true) ∧
    (¬ ∃ k, k < 3 ∧ (0b101#3).getLsbD k = true ∧ State.reset.cond.getLsbD k = true) ∧
    State.reset.condOneHot :=
  ⟨⟨1, by decide⟩, by decide, .inr (.inl rfl)⟩

/-- S7: `JSR` at 0x3002 and `RET` at 0x3008. -/
theorem witness_JsrThenRetReturns :
    let s := stateOf 0x3002 [(0x3002, 0x4803)] []
    let t := stateOf 0x3006 [(0x3002, 0x4803)] [(7, 0x3003)]
    let u := stateOf 0x3008 [(0x3008, 0xC1C0)] [(7, 0x3003)]
    s.run = .running ∧ s.hold = none ∧ s.arrivals = [] ∧ s.pc ≠ 0xFE00#16 ∧
    s.stored s.pc = 0b0100#4 ++ 1#1 ++ 3#11 ∧ step s = .next t ∧
    u.run = .running ∧ u.hold = none ∧ u.arrivals = [] ∧ u.pc ≠ 0xFE00#16 ∧
    u.stored u.pc = 0xC1C0#16 ∧ u.reg 7#3 = t.reg 7#3 :=
  ⟨rfl, rfl, rfl, by decide, by decide, next_of_nextOf (by decide), rfl, rfl, rfl, by decide,
    by decide, by decide⟩

/-- A vector of each clause: neither GETC nor IN, and not HALT; HALT; GETC. -/
theorem witness_TrapEntryLinksAndKeepsPc :
    (∃ t, exec (.trap 0x21#8) wState = .next t) ∧ (0x21#8 ≠ 0x20#8 ∧ 0x21#8 ≠ 0x23#8 ∧ 0x21#8 ≠ 0x25#8) ∧
    (∃ t, exec (.trap 0x25#8) wState = .next t) ∧ (∃ t, exec (.trap 0x20#8) wState = .next t) :=
  ⟨exists_next (by decide), by decide, exists_next (by decide), exists_next (by decide)⟩

/-- Both ends of both ranges. -/
theorem witness_TrapUnknownVectorOnlyLinks :
    ((0x00#8).toNat < 0x20 ∨ 0x25 < (0x00#8).toNat) ∧ ((0x1F#8).toNat < 0x20 ∨ 0x25 < (0x1F#8).toNat) ∧
    ((0x26#8).toNat < 0x20 ∨ 0x25 < (0x26#8).toNat) ∧
    ((0xFF#8).toNat < 0x20 ∨ 0x25 < (0xFF#8).toNat) := by decide

theorem witness_GetcReadsOneCharacter :
    (wState.typeChar 0x00).kbq = 0x00#8 :: [] ∧ wState.kbq = [] := by decide

theorem witness_InPromptsReadsAndEchoes :
    (wState.typeChar 0xFF).kbq = 0xFF#8 :: [] ∧ wState.kbq = [] := by decide

theorem witness_HeldStepEndsAsIfTypedBefore :
    (wHeld.run = .running ∧ wHeld.hold = some .getc ∧ wHeld.kbq = [] ∧ wHeld.arrivals = []) ∧
    ({ wHeld with arrivals := [[]] }.arrivals = [] :: [] ∧ { wHeld with arrivals := [[]] }.kbq = []) ∧
    (wState.run = .running ∧ wState.hold = none ∧ wState.kbq = [] ∧ wState.arrivals = [] ∧
      (∃ t, exec (.trap 0x20#8) wState = .next t) ∧ ∃ t, exec (.trap 0x23#8) wState = .next t) :=
  ⟨by decide, by decide, rfl, rfl, rfl, rfl, exists_next (by decide), exists_next (by decide)⟩

/-- An empty string, one of two words, and one that begins at KBSR with a key pending. -/
theorem witness_PutsWritesWordsUpToFirstZero :
    (State.reset.readsFrom 1 (State.reset.reg 0#3)).1 = [] ++ [0x0000#16] ∧
    (wState.readsFrom 3 (wState.reg 0#3)).1 = [0x0048#16, 0x6900#16] ++ [0x0000#16] ∧
    (∀ w ∈ [0x0048#16, 0x6900#16], w ≠ 0x0000#16) ∧
    (let s := (stateOf 0x3001 [] [(0, 0xFE00)]).typeChar 0x41
     (s.readsFrom 2 (s.reg 0#3)).1 = [0x8000#16] ++ [0x0000#16]) :=
  ⟨by decide, by decide, by simp, by decide⟩

theorem witness_PutspWritesPackedBytesUpToFirstZero :
    (wState.readsFrom 3 (wState.reg 0#3)).1 = [0x0048#16, 0x6900#16] ++ [0x0000#16] ∧
    (∀ w ∈ [0x0048#16, 0x6900#16], w ≠ 0x0000#16) := ⟨by decide, by simp⟩

/-- The empty string, and one that wraps past 0xFFFF. -/
theorem witness_PutsWritesPlainString :
    (let s := State.reset
     (∀ k, k ≤ 0 → s.reg 0#3 + BitVec.ofNat 16 k ≠ 0xFE00#16) ∧
     (∀ k, k < 0 → s.stored (s.reg 0#3 + BitVec.ofNat 16 k) ≠ 0x0000#16) ∧
     s.stored (s.reg 0#3 + BitVec.ofNat 16 0) = 0x0000#16) ∧
    (let s := stateOf 0x3001 [(0xFFFF, 0x41), (0x0000, 0x42)] [(0, 0xFFFF)]
     (∀ k, k ≤ 2 → s.reg 0#3 + BitVec.ofNat 16 k ≠ 0xFE00#16) ∧
     (∀ k, k < 2 → s.stored (s.reg 0#3 + BitVec.ofNat 16 k) ≠ 0x0000#16) ∧
     s.stored (s.reg 0#3 + BitVec.ofNat 16 2) = 0x0000#16) := by
  refine ⟨⟨?_, ?_, ?_⟩, ⟨?_, ?_, ?_⟩⟩ <;> decide

/-- A step that aborts, one that halts, one that does neither, and one of a held state. -/
theorem witness_RunEndsOnlyByHaltOrReserved :
    (∃ t, step (stateOf 0x3000 [(0x3000, 0x8000)] []) = .next t ∧ t.run = .aborted) ∧
    (∃ t, step (stateOf 0x3000 [(0x3000, 0xF025)] []) = .next t ∧ t.run = .halted) ∧
    (∃ t, step State.reset = .next t ∧ t.run = .running) ∧
    ((∃ t, step wHeld = .next t) ∧ wHeld.hold ≠ none) :=
  ⟨exists_next_run (by decide), exists_next_run (by decide), exists_next_run (by decide),
    exists_next (by decide), by decide⟩

theorem witness_MemoryReadInterceptsKbsrOnly :
    0xFE01#16 ≠ 0xFE00#16 ∧ wState.kbq = [] ∧ (wState.typeChar 0x41).kbq = 0x41#8 :: [] := by decide

theorem witness_RepeatedPollsConsume :
    (wState.typeChar 0x41).kbq = [0x41#8] ∧
    ((wState.typeChar 0x41).typeChar 0x42).kbq = 0x41#8 :: 0x42#8 :: [] := by decide

theorem witness_FetchFromKbsrPolls :
    let s := stateOf 0xFE00 [] []
    s.run = .running ∧ s.hold = none ∧ s.arrivals = [] ∧ s.pc = 0xFE00#16 ∧ s.kbq = [] ∧
      (s.typeChar 0x41).kbq = 0x41#8 :: [] := by decide

theorem witness_MemoryWriteReplacesOneWord : 0xFE02#16 ≠ 0xFE00#16 := by decide

theorem witness_StoreIsSeenByNextFetch :
    wState.run = .running ∧ wState.hold = none ∧ wState.arrivals = [] ∧ wState.pc ≠ 0xFE00#16 := by decide

/-- Both ends of the range of widths; the test of R88 holds on one side and fails on the other. -/
theorem witness_SignExtensionIsTwosComplement :
    (1 ≤ 1 ∧ 1 ≤ 15 ∧ (0#1).toNat < 2 ^ (1 - 1) ∧ ¬ (1#1).toNat < 2 ^ (1 - 1)) ∧
    (1 ≤ 15 ∧ 15 ≤ 15 ∧ (0x3FFF#15).toNat < 2 ^ (15 - 1) ∧ ¬ (0x4000#15).toNat < 2 ^ (15 - 1)) := by decide

theorem witness_CanonicalMemoriesReadAlikeAreEqual :
    let m : Memory := [(0x0000, 0x0001), (0xFFFF, 0x8000)]
    m.wf = true ∧ ∀ a, Memory.read m a = Memory.read m a := ⟨by decide, fun _ => rfl⟩

theorem witness_StepRunsTheDecodedInstruction :
    let s := stateOf 0x3000 [(0x3000, 0x1042)] []
    s.run = .running ∧ s.hold = none ∧ s.arrivals = [] ∧ decode (s.memRead s.pc).1 = .addReg 0 1 2 ∧
      s.pc ≠ 0xFE00#16 ∧ decode (s.stored s.pc) = .addReg 0 1 2 := by decide

theorem witness_HostTypingPrecedesTheStep :
    let s := { wHeld with arrivals := [[0x61], []] }
    s.run = .running ∧ s.arrivals = [0x61#8] :: [[]] ∧
      ∃ t, step { s with kbq := s.kbq ++ [0x61#8], arrivals := [] } = .next t :=
  ⟨rfl, rfl, exists_next (by decide)⟩

theorem witness_MachineStepsExactlyWhileRunning :
    State.reset.run = .running ∧ (State.reset.setRun .halted).run = .halted ∧
      (State.reset.setRun .aborted).run = .aborted := ⟨rfl, rfl, rfl⟩

theorem witness_CondIsAlwaysOneHot :
    State.reset.condOneHot ∧ ∃ t, step State.reset = .next t :=
  ⟨.inr (.inl rfl), exists_next (by decide)⟩

/-- The invariant holds of a held state and of one that is not, and both step. -/
theorem witness_StepKeepsInvariant :
    (State.reset.Inv ∧ ∃ t, step State.reset = .next t) ∧ (wHeld.Inv ∧ ∃ t, step wHeld = .next t) :=
  ⟨⟨⟨rfl, .inr (.inl rfl), fun h => absurd rfl h⟩, exists_next (by decide)⟩,
    ⟨⟨rfl, .inr (.inl rfl), fun _ => ⟨rfl, by decide⟩⟩, exists_next (by decide)⟩⟩

/-- A run of one step from a loaded memory, and one in which the host types `a` and GETC takes it. -/
theorem witness_ReachedStatesSatisfyInvariant :
    Memory.wf [(0x3000, 0x1021)] = true ∧
    (∃ t, Reaches { State.boot [(0x3000, 0x1021)] with arrivals := [], params := ⟨[], []⟩ } t ∧ t.reg 0 = 1) ∧
    Memory.wf [(0x3000, 0xF020)] = true ∧
    ∃ t, Reaches { State.boot [(0x3000, 0xF020)] with arrivals := [[0x61]], params := ⟨[], []⟩ } t ∧
      t.reg 0 = 0x61 := by
  have key : ∀ (s : State) (v : Word), (nextOf (step s)).map (fun t => t.reg 0) = some v →
      ∃ t, Reaches s t ∧ t.reg 0 = v := fun s v h => by
    obtain ⟨t, ht, hr⟩ := Option.map_eq_some_iff.mp h
    exact ⟨t, .step .refl (next_of_nextOf ht), hr⟩
  exact ⟨by decide, key _ _ (by decide), by decide, key _ _ (by decide)⟩

/-- The program that is one HALT: from reset it fetches no reserved opcode. -/
theorem witness_RunWithoutReservedFetchIsSafe :
    let s := State.boot [(0x3000, 0xF025)]
    s.run = .running ∧ ∀ u, Reaches s u → u.run = .running → u.hold = none →
      (decode u.deliver.fetch.1).wellFormed = true := by
  have key : ∀ u, Reaches (State.boot [(0x3000, 0xF025)]) u →
      u = State.boot [(0x3000, 0xF025)] ∨ u.run = .halted := by
    intro u h
    induction h with
    | refl => exact .inl rfl
    | step _ hs ih =>
      rcases ih with rfl | hh
      · right
        have := congrArg (fun o => (nextOf o).map (fun t => t.run)) hs
        exact (Option.some.inj (this.symm.trans (by decide)))
      · simp [step, hh] at hs
  refine ⟨rfl, fun u h hr _ => ?_⟩
  rcases key u h with rfl | hh
  · decide
  · rw [hh] at hr; cases hr

/-- R92's example. -/
theorem witness_IgnoredBitsChangeNothing :
    let r : OpcodeRow := ⟨"ADD", 0x1000, 0xF020, 0x0018⟩
    r ∈ opcodeRows ∧ r.matches 0x1042 = true ∧
      0x1042#16 &&& ~~~ r.ignored = 0x105A#16 &&& ~~~ r.ignored := by decide

/-- ST is no flag-setting instruction and takes a next state; OUT likewise. -/
theorem witness_OnlyListedInstructionsSetCond :
    (∃ t, exec (.st 1 2) wState = .next t) ∧ (Instr.st 1 2).setsCond = false ∧
    (∃ t, exec (.trap 0x22) wState = .next t) ∧ (Instr.trap 0x22).setsCond = false := by
  exact ⟨exists_next (by decide), rfl, exists_next (by decide), by decide⟩

/-- An instruction that sets `cond`, one that does not, and a GETC that is held and so has not yet. -/
theorem witness_OnlyBranchReadsCond :
    (∀ nzp off, Instr.addReg 0 1 2 ≠ .br nzp off) ∧ (∃ t, exec (.addReg 0 1 2) wState = .next t) ∧
    (∃ t, exec (.jmp 3) wState = .next t) ∧
    (∃ t, exec (.trap 0x20) wState = .next t) ∧ (Instr.trap 0x20).waitsForKey = true ∧ wState.kbq = [] :=
  ⟨fun _ _ h => by (cases h), exists_next (by decide), exists_next (by decide), exists_next (by decide),
    by decide, by decide⟩

theorem witness_RegistersOutsideTheListAreKept :
    ∃ t, exec (.ld 3 0) wState = .next t := exists_next (by decide)

/-- A store; an instruction that reads no memory, at KBDR; and a load and STI away from KBSR, at KBSR. -/
theorem witness_OnlyStoresAndPollsWriteMemory :
    (∃ t, exec (.st 2 0) wState = .next t) ∧
    ((Instr.st 2 0).storeAddr wState ≠ some 0x4000#16 ∧ 0x4000#16 ≠ 0xFE00#16 ∧ 0x4000#16 ≠ 0xFE02#16) ∧
    ((Instr.st 2 0).readsMem = false ∧ (Instr.st 2 0).storeAddr wState ≠ some 0xFE02#16) ∧
    (∃ t, exec (.ldi 2 0) wState = .next t) ∧
    (0xFE00#16 ∉ (Instr.ldi 2 0).dataReads wState ∧ (Instr.ldi 2 0).storeAddr wState ≠ some 0xFE00#16) ∧
    (∃ t, exec (.sti 2 0) wState = .next t) ∧
    (0xFE00#16 ∉ (Instr.sti 2 0).dataReads wState ∧ (Instr.sti 2 0).storeAddr wState ≠ some 0xFE00#16) ∧
    ∀ v, Instr.ldi 2 0 ≠ .trap v ∧ Instr.sti 2 0 ≠ .trap v :=
  ⟨exists_next (by decide), by decide, by decide, exists_next (by decide), by decide,
    exists_next (by decide), by decide, fun _ => ⟨fun h => by (cases h), fun h => by (cases h)⟩⟩

theorem witness_OnlyControlInstructionsChangePc :
    (∃ t, exec (.trap 0x25) wState = .next t) ∧ (Instr.trap 0x25).writesPc = false :=
  ⟨exists_next (by decide), rfl⟩

theorem witness_OutputGrowsOnlyByServices :
    (∃ t, exec (.trap 0x21) wState = .next t) ∧ (∃ t, exec (.trap 0x20) wState = .next t) ∧
      (Instr.trap 0x20).writesOut = false :=
  ⟨exists_next (by decide), exists_next (by decide), by decide⟩

theorem witness_KeyboardQueueOnlyLosesItsHead :
    (∃ t, exec (.ld 0 0) (wState.typeChar 0x41) = .next t) ∧
      (∃ t, exec (.jmp 1) (wState.typeChar 0x41) = .next t) ∧
      (Instr.jmp 1).readsMem = false ∧ (Instr.jmp 1).waitsForKey = false :=
  ⟨exists_next (by decide), exists_next (by decide), rfl, rfl⟩

theorem witness_TypingCommutesWithOtherInstructions :
    (Instr.str 0 1 2).readsMem = false ∧ (Instr.str 0 1 2).waitsForKey = false ∧
      ∃ t, exec (.str 0 1 2) wState = .next t :=
  ⟨rfl, rfl, exists_next (by decide)⟩

/-- An image that ends at the top of memory, one word at the last address, and its clauses: a word inside,
an address below. -/
theorem witness_ImageIsLoadedAtItsOrigin :
    (0xFFFF#16).toNat + [0x1234#16].length ≤ 65536 ∧ ([0x1234#16] : List Word)[0]? = some 0x1234#16 ∧
      0xFFFE < (0xFFFF#16).toNat := by decide

/-- An image over another one that ends inside it, as R204 has it. -/
theorem witness_LaterImagesOverwriteEarlierOnes :
    ∃ s, State.bootImages [[0x30, 0x00, 0x50, 0x20, 0x10, 0x27]] = some s ∧
      (0x3001#16).toNat + [0xF025#16].length ≤ 65536 ∧ ([0xF025#16] : List Word)[0]? = some 0xF025#16 ∧
      0x3000 < (0x3001#16).toNat :=
  ⟨_, rfl, by decide, by decide, by decide⟩

end Sys2Proof.Tests
end

section
/-! PROOFS. The statements of 00_scope.md about the core's interfaces: the host's typing (R11, R116), the
keyboard queue (R11, R70) and the output (R13). Those about the keyboard rest on a pair of commuting
lemmas: an instruction that neither reads memory nor waits for a key does the same whatever is typed or
will be (`exec_setHost`), and every instruction does the same whatever the host will type later
(`exec_setArrivals`). -/

namespace Sys2Proof.Machine

open State

/-! ### The host's side of the keyboard, replaced -/

/-- The state with what the host will type from the next step boundary on (R116) replaced. -/
def State.setArrivals (s : State) (l : List (List Byte)) : State := { s with arrivals := l }

/-- The state with all of the host's typing replaced: what is pending and what is still to come. -/
def State.setHost (s : State) (q : List Byte) (l : List (List Byte)) : State :=
  (s.setKbq q).setArrivals l

theorem State.setHost_self (s : State) : s.setHost s.kbq s.arrivals = s := rfl

theorem State.typeChar_eq_setHost (s : State) (c : Byte) :
    s.typeChar c = s.setHost (s.kbq ++ [c]) s.arrivals := rfl

/-- The typing of a step boundary, in the terms of this file. -/
theorem State.deliver_cons (s : State) (cs : List Byte) (later : List (List Byte))
    (h : s.arrivals = cs :: later) : s.deliver = s.setHost (s.kbq ++ cs) later := by
  simp [deliver_eq, h, setHost, setArrivals, setKbq]

theorem State.setHost_outChars (s : State) (q : List Byte) (l : List (List Byte)) (cs : List Byte) :
    (s.setHost q l).outChars cs = (s.outChars cs).setHost q l := by
  simp [outChars_eq, setHost, setArrivals, setKbq]

theorem State.setArrivals_outChars (s : State) (l : List (List Byte)) (cs : List Byte) :
    (s.setArrivals l).outChars cs = (s.outChars cs).setArrivals l := by
  simp [outChars_eq, setArrivals]

theorem State.setArrivals_memRead (s : State) (l : List (List Byte)) (a : Word) :
    (s.setArrivals l).memRead a = ((s.memRead a).1, (s.memRead a).2.setArrivals l) := by
  rw [memRead_congr s (s.setArrivals l) a rfl rfl]
  have hself : (s.memRead a).2 = { s with mem := (s.memRead a).2.mem, kbq := (s.memRead a).2.kbq } :=
    congrArg Prod.snd (memRead_congr s s a rfl rfl)
  exact Prod.ext rfl (congrArg (·.setArrivals l) hself.symm)

theorem State.setArrivals_loadFrom (s : State) (l : List (List Byte)) (dr : RegIdx) (ea : Word) :
    (s.setArrivals l).loadFrom dr ea = (s.loadFrom dr ea).setArrivals l := by
  unfold loadFrom
  rw [setArrivals_memRead]
  rfl

theorem State.setArrivals_readKey (s : State) (l : List (List Byte)) (h : Hold) :
    (s.setArrivals l).readKey h = (s.readKey h).setArrivals l := by
  cases hq : s.kbq with
  | nil => rw [s.readKey_nil h hq, (s.setArrivals l).readKey_nil h hq]; rfl
  | cons c q =>
    rw [s.readKey_cons h c q hq, (s.setArrivals l).readKey_cons h c q hq]
    cases h <;> rfl

theorem State.setArrivals_fetch (s : State) (l : List (List Byte)) :
    (s.setArrivals l).fetch = (s.fetch.1, s.fetch.2.setArrivals l) := by
  unfold fetch
  rw [show (s.setArrivals l).pc = s.pc from rfl, setArrivals_memRead]
  rfl

theorem stringWalk_setArrivals (chars : Word → List Byte) (l : List (List Byte)) (fuel : Nat) (a : Word)
    (s t : State) (h : stringWalk chars fuel a s = some t) :
    stringWalk chars fuel a (s.setArrivals l) = some (t.setArrivals l) := by
  induction fuel generalizing a s with
  | zero => cases h
  | succ fuel ih =>
    simp only [stringWalk, setArrivals_memRead, setArrivals_outChars] at h ⊢
    split at h
    · next hz => cases h; rw [if_pos hz]
    · next hz => rw [if_neg hz]; exact ih _ _ h

/-! ### BR and TRAP, one equation for each case -/

/-- BR writes `pc` and nothing else, taken or not (43_control.md R150). -/
theorem execBr_eq_setPc (nzp : BitVec 3) (off : BitVec 9) (s : State) :
    execBr nzp off s = .next (s.setPc (if s.branchTaken nzp then s.pc + sext off else s.pc)) := by
  unfold execBr
  split <;> rfl

/-- The two string services take a next state exactly where their walk ends. -/
theorem writeString_eq_next_iff (chars : Word → List Byte) (s t : State) :
    writeString chars s = .next t ↔
      stringWalk chars (walkFuel (s.reg serviceReg) s) (s.reg serviceReg) s = some t := by
  obtain ⟨u, hu, e⟩ := writeString_next chars s
  simp [hu, e]

theorem execTrap_unknown (v : BitVec 8) (s : State) (h : serviceOf v = none) :
    execTrap v s = .next s.link := by
  simp [execTrap, runService, h]

/-- Everything TRAP can do (44_trap.md R160 to R172). -/
theorem execTrap_cases {v : BitVec 8} {s t : State} (h : execTrap v s = .next t) :
    (v = 0x20#8 ∧ t = s.link.readKey .getc) ∨
    (v = 0x21#8 ∧ t = s.link.outChar (lowByte (s.link.reg serviceReg))) ∨
    (v = 0x22#8 ∧ writeString putsChars s.link = .next t) ∨
    (v = 0x23#8 ∧ t = (s.link.outChars s.params.inPrompt).readKey .input) ∨
    (v = 0x24#8 ∧ writeString putspChars s.link = .next t) ∨
    (v = 0x25#8 ∧ t = (s.link.setRun .halted).outChars s.params.haltNotice) ∨
    (serviceOf v = none ∧ t = s.link) := by
  obtain ⟨rfl, -⟩ | ⟨rfl, -⟩ | ⟨rfl, -⟩ | ⟨rfl, -⟩ | ⟨rfl, -⟩ | ⟨rfl, -⟩ | ⟨-, hv⟩ := serviceOf_cases v
  · cases h; exact .inl ⟨rfl, rfl⟩
  · cases h; exact .inr (.inl ⟨rfl, rfl⟩)
  · exact .inr (.inr (.inl ⟨rfl, h⟩))
  · cases h; exact .inr (.inr (.inr (.inl ⟨rfl, rfl⟩)))
  · exact .inr (.inr (.inr (.inr (.inl ⟨rfl, h⟩))))
  · cases h; exact .inr (.inr (.inr (.inr (.inr (.inl ⟨rfl, rfl⟩)))))
  · rw [execTrap_unknown v s hv] at h
    cases h; exact .inr (.inr (.inr (.inr (.inr (.inr ⟨hv, rfl⟩)))))

/-! ### What is typed, and instructions that do not look at it -/

/-- An instruction that neither reads memory nor waits for a key does the same whatever the host has typed
and will type (60_exceptions.md R187), and leaves both alone. -/
theorem exec_setHost (i : Instr) (s t : State) (q : List Byte) (l : List (List Byte))
    (hr : i.readsMem = false) (hk : i.waitsForKey = false) (h : exec i s = .next t) :
    exec i (s.setHost q l) = .next (t.setHost q l) := by
  cases i with
  | br nzp off =>
    obtain rfl := Host.Outcome.next.inj ((execBr_eq_setPc nzp off s).symm.trans h)
    exact execBr_eq_setPc nzp off (s.setHost q l)
  | ld | ldi | ldr | sti => cases hr
  | trap v =>
    obtain ⟨rfl, rfl⟩ | ⟨rfl, rfl⟩ | ⟨rfl, -⟩ | ⟨rfl, rfl⟩ | ⟨rfl, -⟩ | ⟨rfl, rfl⟩ | ⟨hv, rfl⟩ :=
      execTrap_cases h
    · cases hk
    · rfl
    · cases hr
    · cases hk
    · cases hr
    · exact congrArg _ ((s.link.setRun .halted).setHost_outChars q l s.params.haltNotice)
    · exact execTrap_unknown v (s.setHost q l) hv
  | addReg | addImm | st | jsr | jsrr | andReg | andImm | str | rti | not | jmp | res | lea =>
    cases h; rfl

theorem exec_keeps_host (i : Instr) (s t : State) (hr : i.readsMem = false) (hk : i.waitsForKey = false)
    (h : exec i s = .next t) : t.kbq = s.kbq ∧ t.arrivals = s.arrivals := by
  have e := exec_setHost i s t s.kbq s.arrivals hr hk h
  rw [setHost_self] at e
  have ht : t = t.setHost s.kbq s.arrivals := Host.Outcome.next.inj (h.symm.trans e)
  rw [ht]
  exact ⟨rfl, rfl⟩

/-! ### The coming typing, and every instruction -/

theorem writeString_setArrivals (chars : Word → List Byte) (l : List (List Byte)) (s t : State)
    (h : writeString chars s = .next t) :
    writeString chars (s.setArrivals l) = .next (t.setArrivals l) := by
  rw [writeString_eq_next_iff] at h ⊢
  exact stringWalk_setArrivals chars l _ _ s t h

/-- No instruction looks at what the host will type at a later step boundary (40_step_cycle.md R116). -/
theorem exec_setArrivals (i : Instr) (s t : State) (l : List (List Byte)) (h : exec i s = .next t) :
    exec i (s.setArrivals l) = .next (t.setArrivals l) := by
  by_cases hb : i.readsMem = false ∧ i.waitsForKey = false
  · obtain ⟨hr, hk⟩ := hb
    have e : exec i (s.setArrivals l) = .next (t.setHost s.kbq l) :=
      exec_setHost i s t s.kbq l hr hk h
    rw [e, ← (exec_keeps_host i s t hr hk h).1]
    rfl
  · cases i with
    | ld dr | ldr dr => cases h; exact congrArg _ (s.setArrivals_loadFrom l dr _)
    | ldi dr off =>
      cases h
      simp only [exec, execLdi]
      rw [show (s.setArrivals l).pcRel9 off = s.pcRel9 off from rfl, setArrivals_memRead]
      exact congrArg _ (setArrivals_loadFrom _ l dr _)
    | sti sr off =>
      cases h
      simp only [exec, execSti]
      rw [show (s.setArrivals l).pcRel9 off = s.pcRel9 off from rfl, setArrivals_memRead]
      rfl
    | trap v =>
      obtain ⟨rfl, rfl⟩ | ⟨rfl, rfl⟩ | ⟨rfl, hw⟩ | ⟨rfl, rfl⟩ | ⟨rfl, hw⟩ | ⟨rfl, rfl⟩ | ⟨hv, rfl⟩ :=
        execTrap_cases h
      · exact congrArg _ (s.link.setArrivals_readKey l .getc)
      · exact absurd ⟨rfl, rfl⟩ hb
      · exact writeString_setArrivals putsChars l s.link t hw
      · exact congrArg _ ((congrArg (·.readKey .input)
          (s.link.setArrivals_outChars l s.params.inPrompt)).trans (setArrivals_readKey _ l .input))
      · exact writeString_setArrivals putspChars l s.link t hw
      · exact absurd ⟨rfl, rfl⟩ hb
      · exact execTrap_unknown v (s.setArrivals l) hv
    | br | addReg | addImm | st | jsr | jsrr | andReg | andImm | str | rti | not | jmp | res | lea =>
      exact absurd ⟨rfl, rfl⟩ hb

theorem stepRunning_setArrivals (s t : State) (l : List (List Byte)) (h : stepRunning s = .next t) :
    stepRunning (s.setArrivals l) = .next (t.setArrivals l) := by
  cases hh : s.hold with
  | none =>
    rw [stepRunning_free s hh] at h
    rw [stepRunning_free (s.setArrivals l) hh, setArrivals_fetch]
    exact exec_setArrivals _ _ t l h
  | some k =>
    rw [stepRunning_held s k hh] at h
    rw [stepRunning_held (s.setArrivals l) k hh, setArrivals_readKey]
    cases h; rfl

/-- Settles O39: the host's typing makes the queue of the two steps equal, and what is left of the schedule
is looked at by neither. -/
theorem hostTypingPrecedesTheStep : Obligations.HostTypingPrecedesTheStep := by
  unfold Obligations.HostTypingPrecedesTheStep
  intro s t cs later hrun harr h
  have hnow : stepRunning (s.setHost (s.kbq ++ cs) []) = .next t :=
    (step_running (s.setHost (s.kbq ++ cs) []) hrun).symm.trans h
  rw [step_running s hrun, s.deliver_cons cs later harr]
  exact stepRunning_setArrivals (s.setHost (s.kbq ++ cs) []) t later hnow

/-- Settles O58, by the lemma that such an instruction does the same whatever is typed. -/
theorem typingCommutesWithOtherInstructions : Obligations.TypingCommutesWithOtherInstructions := by
  unfold Obligations.TypingCommutesWithOtherInstructions
  refine ⟨fun _ _ => rfl, fun i s t c hr hk h => ?_⟩
  obtain ⟨hq, ha⟩ := exec_keeps_host i s t hr hk h
  rw [s.typeChar_eq_setHost, t.typeChar_eq_setHost, hq, ha]
  exact exec_setHost i s t (s.kbq ++ [c]) s.arrivals hr hk h

/-! ### The queue is a suffix of what it was, the output an extension -/

theorem State.memRead_kbq_suffix (s : State) (a : Word) : (s.memRead a).2.kbq <:+ s.kbq := by
  obtain ⟨used, hu⟩ := s.memRead_kbq a
  exact ⟨used, hu.symm⟩

theorem State.readKey_kbq_suffix (s : State) (h : Hold) : (s.readKey h).kbq <:+ s.kbq := by
  cases hq : s.kbq with
  | nil => rw [s.readKey_nil h hq, setHold_kbq, hq]
  | cons c q => rw [s.readKey_cons h c q hq]; cases h <;> exact List.suffix_cons c q

/-- A key read writes at most the echo of IN (44_trap.md R166). -/
theorem State.readKey_out_prefix (s : State) (h : Hold) : s.out <+: (s.readKey h).out := by
  cases hq : s.kbq with
  | nil => rw [s.readKey_nil h hq, setHold_out]
  | cons c q =>
    rw [s.readKey_cons h c q hq]
    cases h with
    | getc => exact List.prefix_rfl
    | input => exact List.prefix_append s.out [c]

theorem State.readKey_getc_out (s : State) : (s.readKey .getc).out = s.out := by
  cases hq : s.kbq with
  | nil => rw [s.readKey_nil _ hq, setHold_out]
  | cons c q => rw [s.readKey_cons _ c q hq]; rfl

theorem State.outChars_out_prefix (s : State) (cs : List Byte) : s.out <+: (s.outChars cs).out := by
  rw [outChars_eq]
  exact List.prefix_append s.out cs

theorem writeString_kbq_suffix (chars : Word → List Byte) (s t : State)
    (h : writeString chars s = .next t) : t.kbq <:+ s.kbq := by
  obtain ⟨-, -, -, -, -, -, -, -, -, ⟨used, hu⟩, -⟩ :=
    stringWalk_same chars _ _ s t ((writeString_eq_next_iff chars s t).mp h)
  exact ⟨used, hu.symm⟩

theorem writeString_out_prefix (chars : Word → List Byte) (s t : State)
    (h : writeString chars s = .next t) : s.out <+: t.out := by
  obtain ⟨-, -, -, -, -, -, -, -, -, -, ys, hy⟩ :=
    stringWalk_same chars _ _ s t ((writeString_eq_next_iff chars s t).mp h)
  exact ⟨ys, hy.symm⟩

/-- The queue after TRAP: only GETC, IN and the reads of PUTS and PUTSP take from it. -/
theorem execTrap_kbq_suffix (v : BitVec 8) (s t : State) (h : execTrap v s = .next t) :
    t.kbq <:+ s.kbq := by
  obtain ⟨rfl, rfl⟩ | ⟨rfl, rfl⟩ | ⟨rfl, hw⟩ | ⟨rfl, rfl⟩ | ⟨rfl, hw⟩ | ⟨rfl, rfl⟩ | ⟨-, rfl⟩ :=
    execTrap_cases h
  · exact s.link.readKey_kbq_suffix .getc
  · exact List.suffix_rfl
  · exact writeString_kbq_suffix putsChars s.link t hw
  · simpa [outChars_eq] using (s.link.outChars s.params.inPrompt).readKey_kbq_suffix .input
  · exact writeString_kbq_suffix putspChars s.link t hw
  · simp [outChars_eq]
  · exact List.suffix_rfl

theorem exec_kbq_suffix (i : Instr) (s t : State) (h : exec i s = .next t) : t.kbq <:+ s.kbq := by
  cases i with
  | ld | ldr | sti => cases h; exact s.memRead_kbq_suffix _
  | ldi dr off =>
    cases h
    exact (memRead_kbq_suffix _ _).trans (s.memRead_kbq_suffix (s.pcRel9 off))
  | trap v => exact execTrap_kbq_suffix v s t h
  | br | addReg | addImm | st | jsr | jsrr | andReg | andImm | str | rti | not | jmp | res | lea =>
    rw [(exec_keeps_host _ s t rfl rfl h).1]

/-- Only a service writes to the output (00_scope.md R13): TRAP apart, no instruction does. -/
theorem exec_out_of_ne_trap (i : Instr) (s t : State) (hi : ∀ v, i ≠ .trap v) (h : exec i s = .next t) :
    t.out = s.out := by
  cases i with
  | br nzp off => rw [exec, execBr_eq_setPc] at h; cases h; rfl
  | ld | ldr | sti => cases h; exact s.memRead_out _
  | ldi => cases h; exact (memRead_out _ _).trans (s.memRead_out _)
  | trap v => exact absurd rfl (hi v)
  | addReg | addImm | st | jsr | jsrr | andReg | andImm | str | rti | not | jmp | res | lea =>
    cases h; rfl

theorem execTrap_out_prefix (v : BitVec 8) (s t : State) (h : execTrap v s = .next t) :
    s.out <+: t.out := by
  obtain ⟨rfl, rfl⟩ | ⟨rfl, rfl⟩ | ⟨rfl, hw⟩ | ⟨rfl, rfl⟩ | ⟨rfl, hw⟩ | ⟨rfl, rfl⟩ | ⟨-, rfl⟩ :=
    execTrap_cases h
  · exact s.link.readKey_out_prefix .getc
  · exact List.prefix_append s.out _
  · exact writeString_out_prefix putsChars s.link t hw
  · exact (s.link.outChars_out_prefix s.params.inPrompt).trans (readKey_out_prefix _ .input)
  · exact writeString_out_prefix putspChars s.link t hw
  · exact (s.link.setRun .halted).outChars_out_prefix s.params.haltNotice
  · exact List.prefix_rfl

/-- GETC and the vectors that select no service write nothing (44_trap.md R162, R172). -/
theorem execTrap_out_same (v : BitVec 8) (s t : State) (ho : (Instr.trap v).writesOut = false)
    (h : execTrap v s = .next t) : t.out = s.out := by
  obtain ⟨rfl, rfl⟩ | ⟨rfl, rfl⟩ | ⟨rfl, -⟩ | ⟨rfl, rfl⟩ | ⟨rfl, -⟩ | ⟨rfl, rfl⟩ | ⟨-, rfl⟩ :=
    execTrap_cases h
  · exact s.link.readKey_getc_out
  · cases ho
  · cases ho
  · cases ho
  · cases ho
  · cases ho
  · rfl

/-- Settles O56: TRAP by its services, every other instruction by `exec_out_of_ne_trap`. -/
theorem outputGrowsOnlyByServices : Obligations.OutputGrowsOnlyByServices := by
  unfold Obligations.OutputGrowsOnlyByServices
  intro i s t h
  by_cases hi : ∃ v, i = .trap v
  · obtain ⟨v, rfl⟩ := hi
    obtain ⟨ys, hy⟩ := execTrap_out_prefix v s t h
    exact ⟨⟨ys, hy.symm⟩, fun hw => execTrap_out_same v s t hw h⟩
  · have e := exec_out_of_ne_trap i s t (fun v hv => hi ⟨v, hv⟩) h
    exact ⟨⟨[], by rw [e, List.append_nil]⟩, fun _ => e⟩

/-- Settles O57, by the two facts about the queue after an instruction. -/
theorem keyboardQueueOnlyLosesItsHead : Obligations.KeyboardQueueOnlyLosesItsHead := by
  unfold Obligations.KeyboardQueueOnlyLosesItsHead
  intro i s t h
  obtain ⟨used, hu⟩ := exec_kbq_suffix i s t h
  exact ⟨⟨used, hu.symm⟩, fun hr hk => (exec_keeps_host i s t hr hk h).1⟩

end Sys2Proof.Machine
end

section
/-! PROOFS. The statements of 10_state.md about the whole instruction set: what every instruction keeps
(R23, R27, R31, R34), that only BR looks at `cond` (R34, R150), and the invariant of every step boundary
(R35, R170). Most rest on one lemma that says once what an instruction can do to each part of the state
(`exec_effect`) and one that takes a step apart (`step_cases`). -/

namespace Sys2Proof.Machine

open State

/-! ### The step boundary and the fetch -/

@[simp] theorem State.deliver_same (s : State) :
    s.deliver.regs = s.regs ∧ s.deliver.pc = s.pc ∧ s.deliver.cond = s.cond ∧ s.deliver.run = s.run ∧
    s.deliver.mem = s.mem ∧ s.deliver.hold = s.hold := by
  rw [deliver_eq]
  exact ⟨rfl, rfl, rfl, rfl, rfl, rfl⟩

/-- The fetch changes `pc`, and what its read changes (40_step_cycle.md R111). -/
@[simp] theorem State.fetch_same (s : State) :
    s.fetch.2.cond = s.cond ∧ s.fetch.2.run = s.run ∧ s.fetch.2.hold = s.hold :=
  ⟨s.memRead_cond s.pc, s.memRead_run s.pc, s.memRead_hold s.pc⟩

theorem State.fetch_wf (s : State) (h : s.mem.wf = true) : s.fetch.2.mem.wf = true :=
  s.memRead_wf s.pc h

/-- Everything a step can do: end a held instruction, or fetch one and execute it (40_step_cycle.md R110). -/
theorem step_cases {s t : State} (h : step s = .next t) :
    s.run = .running ∧
    ((∃ k, s.hold = some k ∧ t = s.deliver.readKey k) ∨
     (s.hold = none ∧ exec (decode s.deliver.fetch.1) s.deliver.fetch.2 = .next t)) := by
  cases hr : s.run with
  | running =>
    rw [step_running s hr] at h
    cases hh : s.hold with
    | none => exact ⟨rfl, .inr ⟨rfl, (stepRunning_free _ (by simp [hh])).symm.trans h⟩⟩
    | some k =>
      rw [stepRunning_held _ k (by simp [hh])] at h
      cases h
      exact ⟨rfl, .inl ⟨k, rfl, rfl⟩⟩
  | halted | aborted => simp [step, hr] at h

/-! ### What a key read and a string service leave alone -/

/-- What a key read leaves alone, whether it is held or ends (44_trap.md R162, R166, R170). -/
theorem State.readKey_same (s : State) (k : Hold) :
    SameRegsBut s (s.readKey k) [serviceReg] ∧ (s.readKey k).pc = s.pc ∧ (s.readKey k).run = s.run ∧
    (s.readKey k).mem = s.mem := by
  cases hq : s.kbq with
  | nil => rw [s.readKey_nil k hq]; exact ⟨fun _ _ => rfl, rfl, rfl, rfl⟩
  | cons c q =>
    rw [s.readKey_cons k c q hq]
    cases k <;> exact ⟨(frame_setRegCC s serviceReg _).1, rfl, rfl, rfl⟩

/-- A key read that ends sets `cond`; one that is held has not yet. -/
theorem State.readKey_cond (s : State) (k : Hold) :
    (s.readKey k).cond = s.cond ∨ ∃ v, (s.readKey k).cond = condOf v := by
  cases hq : s.kbq with
  | nil => rw [s.readKey_nil k hq]; exact .inl rfl
  | cons c q =>
    rw [s.readKey_cons k c q hq]
    cases k <;> exact .inr ⟨zext8 c, setRegCC_cond _ _ _⟩

/-- A key read keeps `pc` and, as it writes R0 alone, the link to it. -/
theorem State.readKey_linked (s : State) (k : Hold) (hl : s.reg 7#3 = s.pc) :
    (s.readKey k).reg 7#3 = (s.readKey k).pc := by
  obtain ⟨hreg, hpc, -⟩ := s.readKey_same k
  rw [hreg 7#3 (by decide), hpc, hl]

theorem writeString_same {chars : Word → List Byte} {s t : State} (h : writeString chars s = .next t) :
    t.regs = s.regs ∧ t.pc = s.pc ∧ t.cond = s.cond ∧ t.run = s.run ∧ t.hold = s.hold ∧
    (s.mem.wf = true → t.mem.wf = true) := by
  obtain ⟨hregs, hpc, hcond, hrun, hhold, -, -, hwf, -⟩ :=
    stringWalk_same chars _ _ s t ((writeString_eq_next_iff chars s t).mp h)
  exact ⟨hregs, hpc, hcond, hrun, hhold, hwf⟩

/-! ### What an instruction can do to each part of the state -/

/-- What the rules about the whole instruction set say of an instruction `i` that takes `s` to `t`. -/
structure Effect (i : Instr) (s t : State) : Prop where
  /-- The general registers it may write (10_state.md R23). -/
  regs : SameRegsBut s t i.writesRegs
  /-- The control instructions alone go elsewhere (10_state.md R27). -/
  pc : i.writesPc = false → t.pc = s.pc
  /-- Where `cond` is set, the flag rule has given the value (10_state.md R33, R34). -/
  cond : t.cond = s.cond ∨ i.setsCond = true ∧ ∃ v, t.cond = condOf v
  /-- The reserved opcodes abort, HALT halts (10_state.md R31). -/
  run : t.run = if i.wellFormed = false then .aborted else if i = .trap 0x25#8 then .halted else s.run
  /-- An instruction that ends up held has linked and is not ended (44_trap.md R170). -/
  held : s.hold = none → t.hold ≠ none → t.run = s.run ∧ t.reg 7#3 = t.pc
  /-- The canonical form of memory is the model's own (assumption log 1). -/
  wf : s.mem.wf = true → t.mem.wf = true

/-- An operation that keeps what the rules speak of may come first: a read of memory, the link, a prompt. -/
theorem Effect.after {i : Instr} {s u t : State} (hregs : SameRegsBut s u i.writesRegs) (hpc : u.pc = s.pc)
    (hcond : u.cond = s.cond) (hrun : u.run = s.run) (hhold : u.hold = s.hold)
    (hwf : s.mem.wf = true → u.mem.wf = true) (h : Effect i u t) : Effect i s t where
  regs r hr := (h.regs r hr).trans (hregs r hr)
  pc hw := (h.pc hw).trans hpc
  cond := hcond ▸ h.cond
  run := hrun ▸ h.run
  held h0 := hrun ▸ h.held (hhold.trans h0)
  wf hm := h.wf (hwf hm)

theorem Effect.after_memRead {i : Instr} {s t : State} (a : Word) (h : Effect i (s.memRead a).2 t) :
    Effect i s t :=
  h.after (fun r _ => s.memRead_reg a r) (s.memRead_pc a) (s.memRead_cond a) (s.memRead_run a)
    (s.memRead_hold a) (s.memRead_wf a)

theorem Effect.after_link {i : Instr} {s t : State} (h7 : 7#3 ∈ i.writesRegs) (h : Effect i s.link t) :
    Effect i s t :=
  h.after (fun r hr => setReg_reg_other s linkReg r s.pc fun e => hr (e ▸ h7)) rfl rfl rfl rfl id

theorem Effect.after_outChars {i : Instr} {s t : State} (cs : List Byte) (h : Effect i (s.outChars cs) t) :
    Effect i s t := by
  rw [outChars_eq] at h
  exact .after (u := { s with out := s.out ++ cs }) (fun _ _ => rfl) rfl rfl rfl rfl id h

/-- How every flag-setting instruction ends (10_state.md R34). -/
theorem effect_setRegCC {i : Instr} (s : State) (dr : RegIdx) (v : Word) (hr : i.writesRegs = [dr])
    (hc : i.setsCond = true) (hw : i.wellFormed = true) (hi : i ≠ .trap 0x25#8) :
    Effect i s (s.setRegCC dr v) :=
  ⟨hr ▸ (frame_setRegCC s dr v).1, fun _ => rfl, .inr ⟨hc, v, setRegCC_cond s dr v⟩, by simp [hw, hi],
    absurd, id⟩

theorem effect_store {i : Instr} (s : State) (a v : Word) (hw : i.wellFormed = true)
    (hi : i ≠ .trap 0x25#8) : Effect i s (s.store a v) :=
  ⟨fun _ _ => rfl, fun _ => rfl, .inl rfl, by simp [hw, hi], absurd, s.store_wf a v⟩

/-- GETC and IN end with a key read, in a state that has linked. -/
theorem effect_readKey {v : BitVec 8} (s : State) (k : Hold) (hv : v = 0x20#8 ∨ v = 0x23#8)
    (hl : s.reg 7#3 = s.pc) : Effect (.trap v) s (s.readKey k) := by
  obtain ⟨hreg, hpc, hrun, hmem⟩ := s.readKey_same k
  have hs : (Instr.trap v).setsCond = true := by simpa [Instr.setsCond] using hv
  have hr : (Instr.trap v).writesRegs = [0#3, 7#3] := if_pos hv
  have hi : v ≠ 0x25#8 := by rintro rfl; simp at hv
  exact ⟨fun r h => hreg r fun h0 => h (hr ▸ List.mem_append_left [7#3] h0), fun _ => hpc,
    (s.readKey_cond k).imp_right fun h => ⟨hs, h⟩, by simp [hrun, hi, Instr.wellFormed],
    fun _ _ => ⟨hrun, s.readKey_linked k hl⟩, fun h => hmem ▸ h⟩

theorem effect_writeString {v : BitVec 8} {chars : Word → List Byte} {s t : State} (hi : v ≠ 0x25#8)
    (h : writeString chars s = .next t) : Effect (.trap v) s t := by
  obtain ⟨hregs, hpc, hcond, hrun, hhold, hwf⟩ := writeString_same h
  exact ⟨fun r _ => by simp [reg, hregs], fun _ => hpc, .inl hcond, by simp [hrun, hi, Instr.wellFormed],
    fun h0 h1 => absurd (hhold.trans h0) h1, hwf⟩

theorem execTrap_effect {v : BitVec 8} {s t : State} (h : execTrap v s = .next t) :
    Effect (.trap v) s t := by
  have h7 : 7#3 ∈ (Instr.trap v).writesRegs := by
    simp only [Instr.writesRegs]
    split <;> decide
  refine Effect.after_link h7 ?_
  have hl : s.link.reg 7#3 = s.link.pc := setReg_reg_self s linkReg s.pc
  obtain ⟨rfl, rfl⟩ | ⟨rfl, rfl⟩ | ⟨rfl, hw⟩ | ⟨rfl, rfl⟩ | ⟨rfl, hw⟩ | ⟨rfl, rfl⟩ | ⟨hv, rfl⟩ :=
    execTrap_cases h
  · exact effect_readKey s.link .getc (.inl rfl) hl
  · exact ⟨fun _ _ => rfl, fun _ => rfl, .inl rfl, rfl, absurd, id⟩
  · exact effect_writeString (by decide) hw
  · exact .after_outChars _ (effect_readKey _ .input (.inr rfl) (by rw [outChars_eq]; exact hl))
  · exact effect_writeString (by decide) hw
  · rw [outChars_eq]
    exact ⟨fun _ _ => rfl, fun _ => rfl, .inl rfl, rfl, absurd, id⟩
  · have hi : v ≠ 0x25#8 := by rintro rfl; cases hv
    exact ⟨fun _ _ => rfl, fun _ => rfl, .inl rfl, by simp [hi, Instr.wellFormed], absurd, id⟩

/-- Every instruction that takes a next state has the effect the rules allow it. -/
theorem exec_effect {i : Instr} {s t : State} (h : exec i s = .next t) : Effect i s t := by
  cases i with
  | br nzp off =>
    rw [exec, execBr_eq_setPc] at h
    cases h
    exact ⟨fun _ _ => rfl, nofun, .inl rfl, rfl, absurd, id⟩
  | jmp => cases h; exact ⟨fun _ _ => rfl, nofun, .inl rfl, rfl, absurd, id⟩
  | jsr | jsrr => cases h; exact ⟨(frame_setReg s linkReg s.pc).1, nofun, .inl rfl, rfl, absurd, id⟩
  | addReg dr | addImm dr | andReg dr | andImm dr | not dr | lea dr =>
    cases h; exact effect_setRegCC s dr _ rfl rfl rfl nofun
  | ld dr | ldr dr => cases h; exact .after_memRead _ (effect_setRegCC _ dr _ rfl rfl rfl nofun)
  | ldi dr off =>
    cases h
    exact .after_memRead (s.pcRel9 off) (.after_memRead _ (effect_setRegCC _ dr _ rfl rfl rfl nofun))
  | st | str => cases h; exact effect_store s _ _ rfl nofun
  | sti sr off => cases h; exact .after_memRead (s.pcRel9 off) (effect_store _ _ _ rfl nofun)
  | rti | res => cases h; exact ⟨fun _ _ => rfl, fun _ => rfl, .inl rfl, rfl, absurd, id⟩
  | trap v => exact execTrap_effect h

/-! ### The invariant of every step boundary -/

/-- The flag rule's answer is a legal value (10_state.md R33, R35). -/
theorem State.condOneHot_of_condOf {s t : State} (hs : s.condOneHot)
    (h : t.cond = s.cond ∨ ∃ v, t.cond = condOf v) : t.condOneHot := by
  unfold condOneHot
  obtain e | ⟨v, e⟩ := h
  · rw [e]; exact hs
  · rw [e]; exact condOf_legal v

theorem step_condOneHot {s t : State} (hs : s.condOneHot) (h : step s = .next t) : t.condOneHot := by
  have hd : s.deliver.condOneHot := condOneHot_of_condOf hs (.inl (by simp))
  obtain ⟨-, ⟨k, -, rfl⟩ | ⟨-, he⟩⟩ := step_cases h
  · exact condOneHot_of_condOf hd (s.deliver.readKey_cond k)
  · exact condOneHot_of_condOf (s := s.deliver.fetch.2) (condOneHot_of_condOf hd (.inl (by simp)))
      ((exec_effect he).cond.imp_right And.right)

/-- Settles O44: a held step is a key read, and any other step an instruction, whose effect is known. -/
theorem stepKeepsInvariant : Obligations.StepKeepsInvariant := by
  unfold Obligations.StepKeepsInvariant
  intro s t ⟨hwf, hcond, hheld⟩ h
  have hc := step_condOneHot hcond h
  obtain ⟨hr, ⟨k, hk, rfl⟩ | ⟨hh, he⟩⟩ := step_cases h
  · obtain ⟨-, -, krun, kmem⟩ := s.deliver.readKey_same k
    obtain ⟨-, hlink⟩ := hheld (by simp [hk])
    have hl : s.deliver.reg 7#3 = s.deliver.pc := by simpa [reg] using hlink
    exact ⟨by simpa [kmem] using hwf, hc, fun _ => ⟨by simp [krun, hr], s.deliver.readKey_linked k hl⟩⟩
  · have he := exec_effect he
    refine ⟨he.wf (s.deliver.fetch_wf (by simpa using hwf)), hc, fun ht => ?_⟩
    obtain ⟨trun, tlink⟩ := he.held (by simp [hh]) ht
    exact ⟨by simp [trun, hr], tlink⟩

/-- The state a run starts from, whatever is loaded and typed and whatever the texts are. -/
theorem boot_inv (m : Memory) (typed : List (List Byte)) (p : Params) (hm : m.wf = true) :
    State.Inv { State.boot m with arrivals := typed, params := p } :=
  ⟨hm, .inr (.inl rfl), fun h => absurd rfl h⟩

theorem Reaches.inv {s t : State} (hs : s.Inv) (h : Reaches s t) : t.Inv := by
  induction h with
  | refl => exact hs
  | step _ hstep ih => exact stepKeepsInvariant _ _ ih hstep

/-- Settles O45: the invariant holds where the run starts, and every step keeps it. -/
theorem reachedStatesSatisfyInvariant : Obligations.ReachedStatesSatisfyInvariant := by
  unfold Obligations.ReachedStatesSatisfyInvariant
  exact fun m typed p _ hm h => h.inv (boot_inv m typed p hm)

/-- Settles O42: reset is the start of a run with nothing loaded. -/
theorem resetSatisfiesInvariant : Obligations.ResetSatisfiesInvariant := by
  unfold Obligations.ResetSatisfiesInvariant
  exact boot_inv [] [] defaultParams rfl

/-- Settles O43: reset by its invariant, a step by `step_condOneHot`. -/
theorem condIsAlwaysOneHot : Obligations.CondIsAlwaysOneHot := by
  unfold Obligations.CondIsAlwaysOneHot
  obtain ⟨-, hcond, -⟩ := resetSatisfiesInvariant
  exact ⟨hcond, fun _ _ => step_condOneHot⟩

/-! ### How a run ends -/

/-- Settles O29: a key read keeps `run`, and an instruction changes it as `Effect.run` says. -/
theorem runEndsOnlyByHaltOrReserved : Obligations.RunEndsOnlyByHaltOrReserved := by
  unfold Obligations.RunEndsOnlyByHaltOrReserved
  intro s t h
  obtain ⟨hr, ⟨k, hk, rfl⟩ | ⟨hh, he⟩⟩ := step_cases h
  · obtain ⟨-, -, krun, -⟩ := s.deliver.readKey_same k
    simp [krun, hr, hk]
  · rw [(exec_effect he).run]
    split
    · next hw =>
      have hi : decode s.deliver.fetch.1 ≠ .trap 0x25#8 := fun e => by rw [e] at hw; cases hw
      simp [hh, hw, hi]
    · next hw =>
      split
      · next hi => simp [hh, hi, Instr.wellFormed]
      · next hi => simp [hr, hw, hi]

/-! ### What every instruction keeps -/

/-- Settles O53, one part of `exec_effect`. -/
theorem registersOutsideTheListAreKept : Obligations.RegistersOutsideTheListAreKept := by
  unfold Obligations.RegistersOutsideTheListAreKept
  exact fun _ _ _ h => (exec_effect h).regs

/-- Settles O55, one part of `exec_effect`. -/
theorem onlyControlInstructionsChangePc : Obligations.OnlyControlInstructionsChangePc := by
  unfold Obligations.OnlyControlInstructionsChangePc
  exact fun _ _ _ h => (exec_effect h).pc

/-- Settles O51: where `cond` changed, the instruction is of R34's list. -/
theorem onlyListedInstructionsSetCond : Obligations.OnlyListedInstructionsSetCond := by
  unfold Obligations.OnlyListedInstructionsSetCond
  intro i s t h hi
  obtain hc | ⟨hs, -⟩ := (exec_effect h).cond
  · exact hc
  · exact absurd (hs.symm.trans hi) nofun

/-! ### Reset and `SetCC` -/

/-- Settles O41: each field of the reset state. -/
theorem resetStateIsAsSpecified : Obligations.ResetStateIsAsSpecified := by
  unfold Obligations.ResetStateIsAsSpecified
  refine ⟨fun initMem => ⟨fun i => ?_, rfl, rfl, rfl, fun _ => rfl, rfl, rfl⟩, rfl, fun _ => rfl⟩
  exact Vector.getElem_replicate i.isLt

/-- Settles O35: the flag computation answers by the flag rule (`condFor_condOf`). -/
theorem setCCFollowsRegisterSign : Obligations.SetCCFollowsRegisterSign := by
  unfold Obligations.SetCCFollowsRegisterSign
  exact fun s i => ⟨condFor_condOf (s.reg i), rfl, fun _ _ => rfl, fun _ _ => rfl, rfl,
    rfl, rfl, rfl, rfl, rfl⟩

/-! ### `cond` replaced -/

theorem State.setCond_memRead (s : State) (c a : Word) :
    (s.setCond c).memRead a = ((s.memRead a).1, (s.memRead a).2.setCond c) := by
  rw [memRead_congr s (s.setCond c) a rfl rfl]
  have hself : (s.memRead a).2 = { s with mem := (s.memRead a).2.mem, kbq := (s.memRead a).2.kbq } :=
    congrArg Prod.snd (memRead_congr s s a rfl rfl)
  exact Prod.ext rfl (congrArg (·.setCond c) hself.symm)

theorem State.setCond_outChars (s : State) (c : Word) (cs : List Byte) :
    (s.setCond c).outChars cs = (s.outChars cs).setCond c := by
  simp [outChars_eq, setCond]

/-- A load sets `cond` whatever it was. -/
theorem State.setCond_loadFrom (s : State) (c : Word) (dr : RegIdx) (ea : Word) :
    (s.setCond c).loadFrom dr ea = s.loadFrom dr ea := by
  unfold loadFrom
  rw [setCond_memRead]
  rfl

/-- A key read that ends sets `cond` whatever it was. -/
theorem State.setCond_readKey_cons (s : State) (c : Word) (k : Hold) (hq : s.kbq ≠ []) :
    (s.setCond c).readKey k = s.readKey k := by
  obtain ⟨b, q, hb⟩ := List.exists_cons_of_ne_nil hq
  rw [s.readKey_cons k b q hb, (s.setCond c).readKey_cons k b q hb]
  cases k <;> rfl

theorem State.setCond_readKey_nil (s : State) (c : Word) (k : Hold) (hq : s.kbq = []) :
    (s.setCond c).readKey k = (s.readKey k).setCond c := by
  rw [s.readKey_nil k hq, (s.setCond c).readKey_nil k hq]
  rfl

theorem stringWalk_setCond (chars : Word → List Byte) (c : Word) (fuel : Nat) (a : Word) (s t : State)
    (h : stringWalk chars fuel a s = some t) :
    stringWalk chars fuel a (s.setCond c) = some (t.setCond c) := by
  induction fuel generalizing a s with
  | zero => cases h
  | succ fuel ih =>
    simp only [stringWalk, setCond_memRead, setCond_outChars] at h ⊢
    split at h
    · next hz => cases h; rw [if_pos hz]
    · next hz => rw [if_neg hz]; exact ih _ _ h

theorem writeString_setCond (chars : Word → List Byte) (c : Word) (s t : State)
    (h : writeString chars s = .next t) : writeString chars (s.setCond c) = .next (t.setCond c) := by
  rw [writeString_eq_next_iff] at h ⊢
  exact stringWalk_setCond chars c _ _ s t h

/-- The instruction sets `cond` when it runs in `s`: it is of R34's list, and no key read of it is held. -/
def setsCondIn (i : Instr) (s : State) : Prop :=
  i.setsCond = true ∧ ¬ (i.waitsForKey = true ∧ s.kbq = [])

theorem exec_setCond_of_sets (i : Instr) (s : State) (c : Word) (hi : setsCondIn i s) :
    exec i (s.setCond c) = exec i s := by
  obtain ⟨hs, hk⟩ := hi
  cases i with
  | addReg | addImm | andReg | andImm | not | lea => rfl
  | ld dr | ldr dr => exact congrArg Host.Outcome.next (s.setCond_loadFrom c dr _)
  | ldi dr off =>
    simp only [exec, execLdi]
    rw [show (s.setCond c).pcRel9 off = s.pcRel9 off from rfl, setCond_memRead]
    exact congrArg Host.Outcome.next (setCond_loadFrom _ c dr _)
  | trap v =>
    have hv : v = 0x20#8 ∨ v = 0x23#8 := by simpa [Instr.setsCond] using hs
    have hq : s.kbq ≠ [] := fun hq => hk ⟨hs, hq⟩
    obtain rfl | rfl := hv
    · exact congrArg Host.Outcome.next (s.link.setCond_readKey_cons c .getc hq)
    · have hp := s.link.setCond_outChars c s.params.inPrompt
      exact congrArg Host.Outcome.next ((congrArg (·.readKey .input) hp).trans
        (setCond_readKey_cons _ c .input (by rw [outChars_eq]; exact hq)))
  | br | st | sti | str | jmp | jsr | jsrr | rti | res => cases hs

theorem exec_setCond_of_keeps (i : Instr) (s t : State) (c : Word) (hb : ∀ nzp off, i ≠ .br nzp off)
    (hi : ¬ setsCondIn i s) (h : exec i s = .next t) : exec i (s.setCond c) = .next (t.setCond c) := by
  cases i with
  | addReg | addImm | andReg | andImm | not | lea | ld | ldr | ldi => exact absurd ⟨rfl, nofun⟩ hi
  | br nzp off => exact absurd rfl (hb nzp off)
  | st | str | jmp | jsr | jsrr | rti | res => cases h; rfl
  | sti sr off =>
    cases h
    simp only [exec, execSti]
    rw [show (s.setCond c).pcRel9 off = s.pcRel9 off from rfl, setCond_memRead]
    rfl
  | trap v =>
    obtain ⟨rfl, rfl⟩ | ⟨rfl, rfl⟩ | ⟨rfl, hw⟩ | ⟨rfl, rfl⟩ | ⟨rfl, hw⟩ | ⟨rfl, rfl⟩ | ⟨hv, rfl⟩ :=
      execTrap_cases h
    · have hq : s.kbq = [] := by_contra fun hq => hi ⟨rfl, fun h => hq h.2⟩
      exact congrArg _ (s.link.setCond_readKey_nil c .getc hq)
    · rfl
    · exact writeString_setCond putsChars c s.link t hw
    · have hq : s.kbq = [] := by_contra fun hq => hi ⟨rfl, fun h => hq h.2⟩
      have hp := s.link.setCond_outChars c s.params.inPrompt
      exact congrArg _ ((congrArg (·.readKey .input) hp).trans
        (setCond_readKey_nil _ c .input (by rw [outChars_eq]; exact hq)))
    · exact writeString_setCond putspChars c s.link t hw
    · exact congrArg _ ((s.link.setRun .halted).setCond_outChars c s.params.haltNotice)
    · exact execTrap_unknown v (s.setCond c) hv

/-- Settles O52, by the cases of whether the instruction sets `cond`. -/
theorem onlyBranchReadsCond : Obligations.OnlyBranchReadsCond := by
  unfold Obligations.OnlyBranchReadsCond
  intro i s t c hb h
  split
  · next hi => exact (exec_setCond_of_sets i s c hi).trans h
  · next hi => exact exec_setCond_of_keeps i s t c hb hi h

end Sys2Proof.Machine
end

section
/-! PROOFS. The statements of 20_memory.md: the intercept of `MemRead` at KBSR (R55, R57), the plain write of
`MemWrite` (R60, R65), the fetch from KBSR and from a word just stored (R57, R68), the canonical form of
memory (R50), and which words an instruction writes (R51, R59, R70). The last rests on one lemma: but for the
word it stores to, an instruction other than TRAP leaves every word as its data reads leave it
(`exec_stored_afterReads`). -/

namespace Sys2Proof.Machine

open State

/-! ### `MemRead` and `MemWrite` -/

/-- A poll that finds nothing (20_memory.md R55). -/
theorem State.memRead_kbsr_nil (s : State) (h : s.kbq = []) :
    s.memRead kbsrAddr = (kbsrIdle, s.store kbsrAddr kbsrIdle) := by
  simp [memRead, kbPoll_nil s h]

/-- A poll that finds a character (20_memory.md R55). -/
theorem State.memRead_kbsr_cons (s : State) (c : Byte) (q : List Byte) (h : s.kbq = c :: q) :
    s.memRead kbsrAddr =
      (kbsrReady, ((s.setKbq q).store kbsrAddr kbsrReady).store kbdrAddr (c.setWidth 16)) := by
  have hne : kbsrAddr ≠ kbdrAddr := by decide
  simp [memRead, kbPoll_cons s c q h, store_stored_other _ _ _ _ hne]

/-- What a poll that finds a character returns and leaves in KBSR, KBDR and the queue (20_memory.md R55). -/
theorem State.memRead_kbsr_pending (s : State) (c : Byte) (q : List Byte) (h : s.kbq = c :: q) :
    (s.memRead kbsrAddr).1 = 0x8000#16 ∧ (s.memRead kbsrAddr).2.stored kbsrAddr = 0x8000#16 ∧
    (s.memRead kbsrAddr).2.stored kbdrAddr = 0x00#8 ++ c ∧ (s.memRead kbsrAddr).2.kbq = q := by
  have hne : kbsrAddr ≠ kbdrAddr := by decide
  have hzext : c.setWidth 16 = 0x00#8 ++ c := by simp [BitVec.setWidth_eq_append]
  rw [s.memRead_kbsr_cons c q h]
  refine ⟨rfl, ?_, ?_, rfl⟩
  · rw [store_stored_other _ _ _ _ hne, store_stored_self]; rfl
  · rw [store_stored_self, hzext]

/-- What a read of KBSR returns hangs on the queue alone, so not on what is stored there (20_memory.md
R57 (e)). -/
theorem State.memRead_kbsr_fst_congr (s u : State) (h : u.kbq = s.kbq) :
    (u.memRead kbsrAddr).1 = (s.memRead kbsrAddr).1 := by
  cases hq : s.kbq with
  | nil => rw [s.memRead_kbsr_nil hq, u.memRead_kbsr_nil (h.trans hq)]
  | cons c q => rw [s.memRead_kbsr_cons c q hq, u.memRead_kbsr_cons c q (h.trans hq)]

/-- A read keeps every word but KBSR and KBDR, at KBSR as anywhere (20_memory.md R70). -/
theorem State.memRead_sameMemBut (s : State) (a : Word) : SameMemBut s (s.memRead a).2 [kbsrAddr, kbdrAddr] :=
  fun b hb => by
    obtain ⟨hsr, hdr⟩ : b ≠ kbsrAddr ∧ b ≠ kbdrAddr := by simpa using hb
    exact s.memRead_stored a b hsr hdr

/-- Settles O30: a lookup away from KBSR, and the two ends of a poll at it. -/
theorem memoryReadInterceptsKbsrOnly : Obligations.MemoryReadInterceptsKbsrOnly := by
  unfold Obligations.MemoryReadInterceptsKbsrOnly
  intro s
  refine ⟨s.memRead_plain, fun hq => ?_, fun c q hq => ?_⟩
  · rw [show 0xFE00#16 = kbsrAddr from rfl, s.memRead_kbsr_nil hq]
    exact ⟨rfl, store_stored_self _ _ _, rfl, rfl, frame_store s kbsrAddr kbsrIdle⟩
  · obtain ⟨hret, hsr, hdr, hkbq⟩ := s.memRead_kbsr_pending c q hq
    exact ⟨hret, hsr, hdr, hkbq, s.memRead_pc _, s.memRead_cond _,
      fun r _ => s.memRead_reg _ r, s.memRead_sameMemBut _, s.memRead_out _, s.memRead_run _,
      s.memRead_hold _, s.memRead_arrivals _, s.memRead_params _⟩

/-- Settles O31: the second poll is a poll of the state the first one leaves. -/
theorem repeatedPollsConsume : Obligations.RepeatedPollsConsume := by
  unfold Obligations.RepeatedPollsConsume
  intro s c d q v
  refine ⟨fun hq => ?_, fun hq => ?_, ?_⟩
  · obtain ⟨-, -, hdr, hkbq⟩ := s.memRead_kbsr_pending c [] hq
    have hsecond := (s.memRead kbsrAddr).2.memRead_kbsr_nil hkbq
    have hne : kbdrAddr ≠ kbsrAddr := by decide
    refine ⟨congrArg Prod.fst hsecond, ?_⟩
    exact (congrArg (fun r => r.2.stored kbdrAddr) hsecond).trans
      ((store_stored_other _ kbsrAddr kbdrAddr _ hne).trans hdr)
  · obtain ⟨-, -, -, hkbq⟩ := s.memRead_kbsr_pending c (d :: q) hq
    obtain ⟨hret, -, hdr, hkbq'⟩ := (s.memRead kbsrAddr).2.memRead_kbsr_pending d q hkbq
    exact ⟨hret, hdr, hkbq'⟩
  · exact memRead_kbsr_fst_congr s (s.memWrite kbsrAddr v) rfl

/-- A read returns the word just written, away from KBSR (20_memory.md R65). -/
theorem State.memRead_memWrite (s : State) (a v : Word) (h : a ≠ kbsrAddr) :
    (s.memWrite a v).memRead a = (v, s.memWrite a v) := by
  rw [memRead_plain _ a h, memWrite, store_stored_self]

/-- Settles O33: the law of a store, and away from KBSR a read is a lookup. -/
theorem memoryWriteReplacesOneWord : Obligations.MemoryWriteReplacesOneWord := by
  unfold Obligations.MemoryWriteReplacesOneWord
  intro s a v
  exact ⟨store_stored_self s a v, rfl, rfl, frame_store s a v, s.memRead_memWrite a v⟩

/-! ### The fetch -/

/-- A step that nothing holds and before which nothing is typed (40_step_cycle.md R111, R112). -/
theorem step_free (s : State) (hrun : s.run = .running) (hhold : s.hold = none) (harr : s.arrivals = []) :
    step s = exec (decode (s.memRead s.pc).1) ((s.memRead s.pc).2.setPc (s.pc + 1#16)) := by
  have hdeliver : s.deliver = s := by simp [deliver, harr]
  rw [step_running s hrun, hdeliver, stepRunning_free s hhold]
  simp [fetch]

/-- BR with an empty mask is a no-operation (43_control.md R150). -/
theorem exec_br_never (off : BitVec 9) (s : State) : exec (.br 0#3 off) s = .next s := by
  simp [exec, execBr, branchTaken]

/-- Settles O32: the poll returns 0x8000, which is RTI, or 0x0000, which is a BR that is never taken. -/
theorem fetchFromKbsrPolls : Obligations.FetchFromKbsrPolls := by
  unfold Obligations.FetchFromKbsrPolls
  intro s hrun hhold harr hpc
  have hstep : step s = exec (decode (s.memRead kbsrAddr).1) ((s.memRead kbsrAddr).2.setPc 0xFE01#16) := by
    rw [step_free s hrun hhold harr, hpc]; rfl
  refine ⟨fun c q hq => ?_, fun hq => ?_⟩
  · obtain ⟨hret, -, hdr, hkbq⟩ := s.memRead_kbsr_pending c q hq
    have hrti : decode 0x8000#16 = .rti := by decide
    rw [hstep, hret, hrti]
    exact ⟨_, rfl, rfl, rfl, hdr, hkbq, s.memRead_cond _, fun r _ => s.memRead_reg _ r,
      s.memRead_sameMemBut _⟩
  · have hbr : decode kbsrIdle = .br 0#3 0#9 := by decide
    rw [hstep, s.memRead_kbsr_nil hq, hbr, exec_br_never]
    exact ⟨_, rfl, rfl, store_stored_self s kbsrAddr kbsrIdle, rfl, frame_store s kbsrAddr kbsrIdle⟩

/-- Settles O34: the fetch is a plain lookup of the word just written. -/
theorem storeIsSeenByNextFetch : Obligations.StoreIsSeenByNextFetch := by
  unfold Obligations.StoreIsSeenByNextFetch
  intro s v hrun hhold harr hpc
  have hstep := step_free (s.memWrite s.pc v) hrun hhold harr
  rw [show (s.memWrite s.pc v).pc = s.pc from rfl, s.memRead_memWrite s.pc v hpc] at hstep
  exact hstep

/-! ### The canonical form, by what it reads as -/

theorem Memory.wfFrom_cons (lo : Nat) (c : Nat × Word) (m : Memory) :
    wfFrom lo (c :: m) = true ↔
      lo ≤ c.1 ∧ c.1 < 65536 ∧ c.2 ≠ unlistedWord ∧ wfFrom (c.1 + 1) m = true := by
  simp [wfFrom, and_assoc]

theorem Memory.read_below {m : Memory} {lo a : Nat} (hm : wfFrom lo m = true) (h : a < lo) :
    m.read a = unlistedWord := by
  induction m generalizing lo with
  | nil => rfl
  | cons c m ih =>
    obtain ⟨hlo, -, -, htail⟩ := (wfFrom_cons lo c m).mp hm
    rw [read_cons, if_neg (by omega)]
    exact ih htail (by omega)

theorem Memory.read_head_ne_unlisted {c : Nat × Word} {m : Memory} {lo : Nat}
    (hm : wfFrom lo (c :: m) = true) : read (c :: m) c.1 ≠ unlistedWord := by
  obtain ⟨-, -, hc, -⟩ := (wfFrom_cons lo c m).mp hm
  rwa [read_cons, if_pos rfl]

/-- A memory that reads like `c :: m` at the first address of `c :: m` has an entry no higher. -/
theorem Memory.head_le_head {c d : Nat × Word} {m m' : Memory} {lo lo' : Nat}
    (hm : wfFrom lo (c :: m) = true) (hm' : wfFrom lo' (d :: m') = true)
    (h : read (c :: m) c.1 = read (d :: m') c.1) : d.1 ≤ c.1 := by
  obtain ⟨-, hd⟩ := (wfFrom_cons lo' d m').mp hm'
  by_contra hlt
  have hfrom : wfFrom d.1 (d :: m') = true := (wfFrom_cons d.1 d m').mpr ⟨le_rfl, hd⟩
  exact read_head_ne_unlisted hm (h.trans (read_below hfrom (by omega)))

/-- A memory in the canonical form is determined by what it reads as. -/
theorem Memory.wfFrom_ext {m m' : Memory} {lo : Nat} (hm : wfFrom lo m = true) (hm' : wfFrom lo m' = true)
    (h : ∀ a, m.read a = m'.read a) : m = m' := by
  induction m generalizing m' lo with
  | nil =>
    cases m' with
    | nil => rfl
    | cons d m' => exact absurd (h d.1).symm (read_head_ne_unlisted hm')
  | cons c m ih =>
    cases m' with
    | nil => exact absurd (h c.1) (read_head_ne_unlisted hm)
    | cons d m' =>
      have haddr : c.1 = d.1 :=
        le_antisymm (head_le_head hm' hm (h d.1).symm) (head_le_head hm hm' (h c.1))
      have hword : c.2 = d.2 := by simpa [read_cons, haddr] using h c.1
      obtain ⟨-, -, -, htail⟩ := (wfFrom_cons lo c m).mp hm
      obtain ⟨-, -, -, htail'⟩ := (wfFrom_cons lo d m').mp hm'
      rw [← haddr] at htail'
      have htails : ∀ a, read m a = read m' a := fun a => by
        by_cases ha : c.1 = a
        · have hlt : a < c.1 + 1 := by omega
          rw [read_below htail hlt, read_below htail' hlt]
        · simpa [read_cons, ← haddr, ha] using h a
      rw [Prod.ext haddr hword, ih htail htail' htails]

/-- Settles O37: from the lowest address on, the first entries agree and the rests read alike. -/
theorem canonicalMemoriesReadAlikeAreEqual : Obligations.CanonicalMemoriesReadAlikeAreEqual := by
  unfold Obligations.CanonicalMemoriesReadAlikeAreEqual
  exact fun _ _ => Memory.wfFrom_ext

/-! ### The words an instruction writes -/

/-- The state after reads of the addresses `as` in order, each through the intercept (20_memory.md R62). -/
def State.afterReads : State → List Word → State
  | s, [] => s
  | s, a :: as => (s.memRead a).2.afterReads as

/-- Reads change no stored word but KBSR and KBDR (20_memory.md R70). -/
theorem State.afterReads_stored (s : State) (as : List Word) (b : Word) (h : b ≠ kbsrAddr)
    (h' : b ≠ kbdrAddr) : (s.afterReads as).stored b = s.stored b := by
  induction as generalizing s with
  | nil => rfl
  | cons a as ih => exact (ih (s.memRead a).2).trans (s.memRead_stored a b h h')

/-- Reads away from KBSR have no side effect (20_memory.md R55). -/
theorem State.afterReads_plain (s : State) (as : List Word) (h : kbsrAddr ∉ as) : s.afterReads as = s := by
  induction as with
  | nil => rfl
  | cons a as ih =>
    obtain ⟨ha, has⟩ := not_or.mp (mt List.mem_cons.mpr h)
    rw [afterReads, s.memRead_plain a (Ne.symm ha)]
    exact ih has

theorem State.store_stored_of_ne_some (s : State) {a b : Word} (v : Word) (h : some a ≠ some b) :
    (s.store a v).stored b = s.stored b :=
  s.store_stored_other a b v fun e => h (congrArg some e.symm)

/-- But for the word it stores to, an instruction other than TRAP leaves memory as its data reads leave it:
writes are not intercepted (20_memory.md R51, R59). -/
theorem exec_stored_afterReads {i : Instr} {s t : State} (hi : ∀ v, i ≠ .trap v) (h : exec i s = .next t)
    {a : Word} (ha : i.storeAddr s ≠ some a) : t.stored a = (s.afterReads (i.dataReads s)).stored a := by
  cases i with
  | br nzp off =>
    rw [exec, execBr_eq_setPc] at h
    cases h; rfl
  | st | str | sti => cases h; exact store_stored_of_ne_some _ _ ha
  | trap v => exact absurd rfl (hi v)
  | addReg | addImm | andReg | andImm | not | lea | ld | ldi | ldr | jmp | jsr | jsrr | rti | res =>
    cases h; rfl

theorem dataReads_of_readsMem_false {i : Instr} (s : State) (h : i.readsMem = false) :
    i.dataReads s = [] := by
  cases i with
  | ld | ldi | ldr | sti => cases h
  | br | addReg | addImm | st | jsr | jsrr | andReg | andImm | str | rti | not | jmp | res | lea | trap => rfl

/-- PUTS and PUTSP change no word but those a poll of their walk may change (20_memory.md R61, R70). -/
theorem writeString_stored {chars : Word → List Byte} {s t : State} (h : writeString chars s = .next t)
    {b : Word} (hb : b ≠ kbsrAddr) (hb' : b ≠ kbdrAddr) : t.stored b = s.stored b := by
  obtain ⟨-, -, -, -, -, -, -, -, hmem, -⟩ :=
    stringWalk_same chars _ _ s t ((writeString_eq_next_iff chars s t).mp h)
  exact hmem b hb hb'

/-- A service that reads no string changes no word (44_trap.md R169). -/
theorem execTrap_mem {v : BitVec 8} {s t : State} (hr : (Instr.trap v).readsMem = false)
    (h : execTrap v s = .next t) : t.mem = s.mem := by
  obtain ⟨-, rfl⟩ | ⟨-, rfl⟩ | ⟨rfl, -⟩ | ⟨-, rfl⟩ | ⟨rfl, -⟩ | ⟨-, rfl⟩ | ⟨-, rfl⟩ := execTrap_cases h
  · obtain ⟨-, -, -, hmem⟩ := s.link.readKey_same .getc
    exact hmem
  · rfl
  · cases hr
  · obtain ⟨-, -, -, hmem⟩ := (s.link.outChars s.params.inPrompt).readKey_same .input
    rw [hmem, outChars_eq]; rfl
  · cases hr
  · rw [outChars_eq]; rfl
  · rfl

/-- TRAP changes no word but KBSR and KBDR (44_trap.md R169). -/
theorem execTrap_stored {v : BitVec 8} {s t : State} (h : execTrap v s = .next t) {b : Word}
    (hb : b ≠ kbsrAddr) (hb' : b ≠ kbdrAddr) : t.stored b = s.stored b := by
  by_cases hr : (Instr.trap v).readsMem = false
  · simp [stored, execTrap_mem hr h]
  · have hv : v = 0x22#8 ∨ v = 0x24#8 := by
      simpa [Instr.readsMem, or_iff_not_imp_left] using hr
    obtain rfl | rfl := hv
    · exact writeString_stored (s := s.link) (chars := putsChars) h hb hb'
    · exact writeString_stored (s := s.link) (chars := putspChars) h hb hb'

/-- Settles O54: TRAP by its services, every other instruction by what its data reads do. -/
theorem onlyStoresAndPollsWriteMemory : Obligations.OnlyStoresAndPollsWriteMemory := by
  unfold Obligations.OnlyStoresAndPollsWriteMemory
  intro i s t h
  by_cases hi : ∃ v, i = .trap v
  · obtain ⟨v, rfl⟩ := hi
    have h : execTrap v s = .next t := h
    exact ⟨fun _ _ hb hb' => execTrap_stored h hb hb',
      fun hr a _ => congrArg (·.read a.toNat) (execTrap_mem hr h), fun hn => absurd rfl (hn v)⟩
  · have hn : ∀ v, i ≠ .trap v := fun v e => hi ⟨v, e⟩
    refine ⟨fun a ha hb hb' => ?_, fun hr a ha => ?_, fun _ hk a ha => ?_⟩
    · rw [exec_stored_afterReads hn h ha, s.afterReads_stored _ a hb hb']
    · rw [exec_stored_afterReads hn h ha, dataReads_of_readsMem_false s hr]; rfl
    · rw [exec_stored_afterReads hn h ha, s.afterReads_plain _ hk]

end Sys2Proof.Machine
end

section
/-! PROOFS. The statements of 30_encoding.md. Decoding inverts encoding (R81, R90) field by field: there is one
lemma for each word format (`fields_…`). The opcode table (R91, R92) rests on what it means for a word to be of
a row: its opcode and the mode bit that the row looks at, if any, are the row's (`OpcodeRow.matches_iff`).
The sign extension of R88 is the library's `BitVec.signExtend` (`sext_eq_signExtend`). -/

namespace Sys2Proof

/-! ### The fields of an encoded word -/

theorem extract_last {m n : Nat} (x : BitVec m) (y : BitVec n) : (x ++ y).extractLsb' 0 n = y :=
  (extract_low x y 0 n (Nat.zero_add n).le).trans (extract_all y)

theorem fieldOpcode_encode (i : Instr) : fieldOpcode (encode i) = i.opcodeNumber := by
  open Laws.OpcodeField in
  cases i
  exacts [br _ _, addReg _ _ _, addImm _ _ _, ld _ _, st _ _, jsr _, jsrr _, andReg _ _ _,
    andImm _ _ _, ldr _ _ _, str _ _ _, rti, not _ _, ldi _ _, sti _ _, jmp _, res, lea _ _, trap _]

section
variable (op : BitVec 4) (r r' r'' : RegIdx)

/-- A register and a 9-bit offset: BR, LD, ST, LDI, STI, LEA. -/
theorem fields_regOff9 (off : BitVec 9) :
    fieldDR (op ++ r ++ off) = r ∧ fieldPCoffset9 (op ++ r ++ off) = off := by
  constructor <;>
  · repeat (refine (extract_high _ _ _ _ (by decide)).trans ?_)
    exact extract_last _ _

/-- Two registers and a 6-bit offset: LDR, STR; also NOT and JMP, whose other bits are filled. -/
theorem fields_regRegOff6 (off : BitVec 6) :
    fieldDR (op ++ r ++ r' ++ off) = r ∧ fieldSR1 (op ++ r ++ r' ++ off) = r' ∧
    fieldOffset6 (op ++ r ++ r' ++ off) = off := by
  refine ⟨?_, ?_, ?_⟩ <;>
  · repeat (refine (extract_high _ _ _ _ (by decide)).trans ?_)
    exact extract_last _ _

/-- ADD and AND, immediate mode. -/
theorem fields_immMode (imm5 : BitVec 5) :
    fieldImmMode (op ++ r ++ r' ++ 1#1 ++ imm5) = true ∧
    fieldDR (op ++ r ++ r' ++ 1#1 ++ imm5) = r ∧ fieldSR1 (op ++ r ++ r' ++ 1#1 ++ imm5) = r' ∧
    fieldImm5 (op ++ r ++ r' ++ 1#1 ++ imm5) = imm5 := by
  refine ⟨(getLsbD_high _ _ _ (by decide)).trans (getLsbD_low _ _ _ (by decide)), ?_, ?_, ?_⟩ <;>
  · repeat (refine (extract_high _ _ _ _ (by decide)).trans ?_)
    exact extract_last _ _

/-- ADD and AND, register mode. -/
theorem fields_regMode :
    fieldImmMode (op ++ r ++ r' ++ 0#1 ++ 0#2 ++ r'') = false ∧
    fieldDR (op ++ r ++ r' ++ 0#1 ++ 0#2 ++ r'') = r ∧
    fieldSR1 (op ++ r ++ r' ++ 0#1 ++ 0#2 ++ r'') = r' ∧
    fieldSR2 (op ++ r ++ r' ++ 0#1 ++ 0#2 ++ r'') = r'' := by
  refine ⟨(getLsbD_high _ _ _ (by decide)).trans <| (getLsbD_high _ _ _ (by decide)).trans <|
    getLsbD_low _ _ _ (by decide), ?_, ?_, ?_⟩ <;>
  · repeat (refine (extract_high _ _ _ _ (by decide)).trans ?_)
    exact extract_last _ _

theorem fields_jsr (off : BitVec 11) :
    fieldJsrMode (op ++ 1#1 ++ off) = true ∧ fieldPCoffset11 (op ++ 1#1 ++ off) = off :=
  ⟨(getLsbD_high _ _ _ (by decide)).trans (getLsbD_low _ _ _ (by decide)), extract_last _ _⟩

theorem fields_jsrr :
    fieldJsrMode (op ++ 0#1 ++ 0#2 ++ r ++ 0#6) = false ∧
    fieldSR1 (op ++ 0#1 ++ 0#2 ++ r ++ 0#6) = r :=
  ⟨(getLsbD_high _ _ _ (by decide)).trans <| (getLsbD_high _ _ _ (by decide)).trans <|
    (getLsbD_high _ _ _ (by decide)).trans <| getLsbD_low _ _ _ (by decide),
   (extract_high _ _ _ _ (by decide)).trans (extract_last _ _)⟩

theorem fields_trap (v : BitVec 8) : fieldTrapvect8 (op ++ 0#4 ++ v) = v := extract_last _ _

end

/-- The opcode selects the handler of the instruction's format, whose fields are the operands. -/
theorem decode_encode (i : Instr) : decode (encode i) = i := by
  rw [decode, fieldOpcode_encode]
  cases i with
  | br | ld | st | ldi | sti | lea => simp only [Instr.opcodeNumber, encode, fields_regOff9]; rfl
  | ldr | str | not | jmp => simp only [Instr.opcodeNumber, encode, fields_regRegOff6]; rfl
  | addImm | andImm => simp only [Instr.opcodeNumber, encode, fields_immMode]; rfl
  | addReg | andReg => simp only [Instr.opcodeNumber, encode, fields_regMode]; rfl
  | jsr => simp only [Instr.opcodeNumber, encode, fields_jsr]; rfl
  | jsrr => simp only [Instr.opcodeNumber, encode, fields_jsrr]; rfl
  | trap => simp only [Instr.opcodeNumber, encode, fields_trap]; rfl
  | rti | res => rfl

/-- Settles O47, one word format at a time. -/
theorem decodeInvertsEncode : Obligations.DecodeInvertsEncode := decode_encode

/-! ### The rows of the opcode table -/

theorem Opcode.ofBits_injective :
    ∀ a b : BitVec 4, Opcode.ofBits a = Opcode.ofBits b → a = b := by decide

namespace OpcodeRow

/-- A row looks at the opcode, and at no other bit but the two mode bits (30_encoding.md R84). -/
theorem mask_bits : ∀ r ∈ opcodeRows, ∀ k : Fin 16,
    (12 ≤ k.val → r.mask.getLsbD k = true) ∧
    (r.mask.getLsbD k = true → 12 ≤ k.val ∨ k = 5 ∨ k = 11) := by decide

theorem value_and_mask : ∀ r ∈ opcodeRows, r.value &&& r.mask = r.value := by decide

theorem not_ignored_and_mask : ∀ r ∈ opcodeRows, ~~~r.ignored &&& r.mask = r.mask := by decide

theorem matches_iff_bits {r : OpcodeRow} (hr : r ∈ opcodeRows) (w : Word) : r.matches w = true ↔
    ∀ k, r.mask.getLsbD k = true → w.getLsbD k = r.value.getLsbD k := by
  have hval (k : Nat) : (r.value.getLsbD k && r.mask.getLsbD k) = r.value.getLsbD k := by
    rw [← BitVec.getLsbD_and, value_and_mask r hr]
  rw [OpcodeRow.matches, beq_iff_eq]
  constructor
  · intro h k hk
    simpa [hk] using congrArg (·.getLsbD k) h
  · intro h
    refine BitVec.eq_of_getLsbD_eq fun k _ => ?_
    rw [BitVec.getLsbD_and, ← hval k]
    cases hk : r.mask.getLsbD k with
    | false => simp
    | true => rw [h k hk]

/-- A word is of a row when its opcode and the mode bit that the row looks at, if any, are the row's. -/
theorem matches_iff {r : OpcodeRow} (hr : r ∈ opcodeRows) (w : Word) : r.matches w = true ↔
    Opcode.ofBits (fieldOpcode w) = Opcode.ofBits (fieldOpcode r.value) ∧
    (fieldImmMode r.mask = true → fieldImmMode w = fieldImmMode r.value) ∧
    (fieldJsrMode r.mask = true → fieldJsrMode w = fieldJsrMode r.value) := by
  rw [matches_iff_bits hr]
  constructor
  · refine fun h => ⟨congrArg _ (BitVec.eq_of_getLsbD_eq fun k hk => ?_), h 5, h 11⟩
    simpa [fieldOpcode, hk] using h (12 + k) ((mask_bits r hr ⟨12 + k, by omega⟩).1 (by simp))
  · rintro ⟨hop, himm, hjsr⟩ k hk
    obtain h12 | h5 | h11 := (mask_bits r hr ⟨k, BitVec.lt_of_getLsbD hk⟩).2 hk
    · have hlt : k - 12 < 4 := by have := BitVec.lt_of_getLsbD hk; omega
      have hadd : 12 + (k - 12) = k := Nat.add_sub_cancel' h12
      simpa [fieldOpcode, hlt, hadd] using
        congrArg (·.getLsbD (k - 12)) (Opcode.ofBits_injective _ _ hop)
    · obtain rfl : k = 5 := congrArg Fin.val h5
      exact himm hk
    · obtain rfl : k = 11 := congrArg Fin.val h11
      exact hjsr hk

end OpcodeRow

/-- The row that an instruction names is of the word it was decoded from. -/
theorem exists_row_matches (w : Word) :
    ∃ r, opcodeRows[(decode w).rowIndex]? = some r ∧ r.matches w = true := by
  cases h : Opcode.ofBits (fieldOpcode w) with
  | add | and =>
    cases hm : fieldImmMode w <;> simp only [decode, h, hm] <;>
    exact ⟨_, rfl, (OpcodeRow.matches_iff (by decide) w).mpr ⟨h, fun _ => hm, nofun⟩⟩
  | jsr =>
    cases hm : fieldJsrMode w <;> simp only [decode, h, hm] <;>
    exact ⟨_, rfl, (OpcodeRow.matches_iff (by decide) w).mpr ⟨h, nofun, fun _ => hm⟩⟩
  | br | ld | st | ldr | str | rti | not | ldi | sti | jmp | res | lea | trap =>
    simp only [decode, h]
    exact ⟨_, rfl, (OpcodeRow.matches_iff (by decide) w).mpr ⟨h, nofun, nofun⟩⟩

/-- Of two rows, some bit that both look at tells them apart. -/
theorem opcodeRows_disjoint :
    opcodeRows.Pairwise fun r r' => r.value &&& r'.mask ≠ r'.value &&& r.mask := by decide

theorem index_eq_of_matches {w : Word} {j k : Nat} {r r' : OpcodeRow} (hj : opcodeRows[j]? = some r)
    (hk : opcodeRows[k]? = some r') (h : r.matches w = true) (h' : r'.matches w = true) : j = k := by
  have hcommon : r.value &&& r'.mask = r'.value &&& r.mask := by
    rw [← beq_iff_eq.mp h, ← beq_iff_eq.mp h', BitVec.and_assoc, BitVec.and_assoc,
      BitVec.and_comm r.mask]
  obtain ⟨hjl, rfl⟩ := List.getElem?_eq_some_iff.mp hj
  obtain ⟨hkl, rfl⟩ := List.getElem?_eq_some_iff.mp hk
  have hdis := List.pairwise_iff_getElem.mp opcodeRows_disjoint
  obtain hlt | heq | hgt := Nat.lt_trichotomy j k
  · exact absurd hcommon (hdis j k hjl hkl hlt)
  · exact heq
  · exact absurd hcommon.symm (hdis k j hkl hjl hgt)

/-- Settles O49: the row of the decoded instruction matches, and no two rows match one word. -/
theorem everyWordHasExactlyOneRow : Obligations.EveryWordHasExactlyOneRow := by
  unfold Obligations.EveryWordHasExactlyOneRow
  refine ⟨rfl, fun w k => ⟨?_, ?_⟩⟩
  · rintro ⟨r, hk, hr⟩
    obtain ⟨r', hk', hr'⟩ := exists_row_matches w
    exact index_eq_of_matches hk hk' hr hr'
  · rintro rfl
    exact exists_row_matches w

/-! ### Ignored bits -/

theorem extractLsb'_congr {w w' m : Word} (h : w &&& m = w' &&& m) {start len : Nat}
    (hm : m.extractLsb' start len = BitVec.allOnes len) :
    w.extractLsb' start len = w'.extractLsb' start len := by
  simpa [BitVec.extractLsb'_and, hm] using congrArg (·.extractLsb' start len) h

/-- Two words of a row select one handler and one mode, and no field then read holds a bit that the row
ignores. -/
theorem decode_congr {r : OpcodeRow} {w w' : Word}
    (hr : opcodeRows[(decode w).rowIndex]? = some r) (hw : r.matches w = true)
    (hw' : r.matches w' = true) (hkept : w &&& ~~~r.ignored = w' &&& ~~~r.ignored) :
    decode w = decode w' := by
  have hmem := List.mem_of_getElem? hr
  obtain ⟨hop, himm, hjsr⟩ := (OpcodeRow.matches_iff hmem w).mp hw
  obtain ⟨hop', himm', hjsr'⟩ := (OpcodeRow.matches_iff hmem w').mp hw'
  rw [← hop] at hop'
  cases h : Opcode.ofBits (fieldOpcode w) with
  | add | and =>
    cases hm : fieldImmMode w <;> simp only [decode, h, hm] at hr <;>
    · obtain rfl := Option.some.inj hr
      have hm' := (himm' rfl).trans (himm rfl).symm
      simp only [decode, hop', h, hm', hm, reduceIte, Bool.false_eq_true]
      congr 1 <;> exact extractLsb'_congr hkept (by decide)
  | jsr =>
    cases hm : fieldJsrMode w <;> simp only [decode, h, hm] at hr <;>
    · obtain rfl := Option.some.inj hr
      have hm' := (hjsr' rfl).trans (hjsr rfl).symm
      simp only [decode, hop', h, hm', hm, reduceIte, Bool.false_eq_true]
      congr 1; exact extractLsb'_congr hkept (by decide)
  | rti | res => simp only [decode, hop', h]
  | br | ld | st | ldr | str | not | ldi | sti | jmp | lea | trap =>
    simp only [decode, h] at hr
    obtain rfl := Option.some.inj hr
    simp only [decode, hop', h]
    congr 1 <;> exact extractLsb'_congr hkept (by decide)

/-- Settles O50: the two words are of the row of the one's instruction. -/
theorem ignoredBitsChangeNothing : Obligations.IgnoredBitsChangeNothing := by
  unfold Obligations.IgnoredBitsChangeNothing
  intro r w w' hmem hw hkept
  have hw' : r.matches w' = true := by
    rw [OpcodeRow.matches, ← OpcodeRow.not_ignored_and_mask r hmem, ← BitVec.and_assoc, ← hkept,
      BitVec.and_assoc, OpcodeRow.not_ignored_and_mask r hmem]
    exact hw
  obtain ⟨k, hk⟩ := List.mem_iff_getElem?.mp hmem
  obtain ⟨r', hr', hw''⟩ := exists_row_matches w
  obtain rfl := index_eq_of_matches hk hr' hw hw''
  exact decode_congr hk hw hw' hkept

/-! ### The words the spec writes out -/

/-- Settles O48, by decoding each word. -/
theorem specExampleWordsDecode : Obligations.SpecExampleWordsDecode := by
  unfold Obligations.SpecExampleWordsDecode
  decide

end Sys2Proof

namespace Sys2Proof.Machine

/-! ### Sign extension -/

theorem sext_eq_ite_getLsbD {n : Nat} (v : BitVec n) : sext v =
    if v.getLsbD (n - 1) then v.setWidth 16 ||| (0xFFFF#16 <<< n) else v.setWidth 16 := by
  rw [sext, BitVec.msb_eq_getLsbD_last]

/-- The pseudocode of 30_encoding.md R88 is the two's complement sign extension. -/
theorem sext_eq_signExtend {n : Nat} (v : BitVec n) : sext v = v.signExtend 16 := by
  refine BitVec.eq_of_getLsbD_eq fun k hk => ?_
  rw [sext, BitVec.getLsbD_signExtend]
  by_cases hkn : k < n
  · cases v.msb <;> simp [hk, hkn]
  · have hbit : v.getLsbD k = false := BitVec.getLsbD_of_ge v k (Nat.le_of_not_lt hkn)
    have hk' : k - n < 16 := by omega
    have hone : (0xFFFF#16)[k - n] = true := BitVec.getElem_allOnes _ hk'
    cases v.msb <;> simp [hk, hkn, hbit, hone]

theorem sext_toNat {n : Nat} (h1 : 1 ≤ n) (h15 : n ≤ 15) (v : BitVec n) : (sext v).toNat =
    if v.toNat < 2 ^ (n - 1) then v.toNat else v.toNat + 65536 - 2 ^ n := by
  have hle : 2 ^ n ≤ 2 ^ 16 := Nat.pow_le_pow_right (by decide) (by omega)
  have hwide : v.toNat % 2 ^ 16 = v.toNat := Nat.mod_eq_of_lt (by have := v.isLt; omega)
  rw [sext_eq_signExtend, BitVec.toNat_signExtend, BitVec.toNat_setWidth, hwide, BitVec.msb_eq_decide]
  by_cases hv : v.toNat < 2 ^ (n - 1)
  · simp [hv]
  · simp [hv, Nat.le_of_not_lt hv]; omega

theorem extractLsb'_sext {n : Nat} (h15 : n ≤ 15) (v : BitVec n) :
    (sext v).extractLsb' 0 n = v := by
  refine BitVec.eq_of_getLsbD_eq fun k hk => ?_
  have hk16 : k < 16 := by omega
  simp [sext_eq_signExtend, BitVec.getElem_signExtend, hk, hk16]

/-- Settles O36, by the library's sign extension. -/
theorem signExtensionIsTwosComplement : Obligations.SignExtensionIsTwosComplement := by
  unfold Obligations.SignExtensionIsTwosComplement
  refine ⟨fun n h1 h15 v => ⟨sext_toNat h1 h15 v, sext_eq_ite_getLsbD v, ?_⟩, ?_⟩
  · rw [extractLsb'_sext h15]
  · decide

end Sys2Proof.Machine
end

section
/-! PROOFS. The statements of 40_step_cycle.md: which instruction a step runs (R111, R112), and that a step
is taken exactly while `run = Running` (R110). Every instruction takes a next state (`exec_next`); only TRAP
needs an argument, since PUTS and PUTSP do so because their walk ends (`writeString_next`). -/

namespace Sys2Proof.Machine

open State

/-! ### Which instruction a step runs -/

/-- Settles O38, by what a step that nothing holds is; away from KBSR its read is a plain lookup. -/
theorem stepRunsTheDecodedInstruction : Obligations.StepRunsTheDecodedInstruction := by
  unfold Obligations.StepRunsTheDecodedInstruction
  intro s i hrun hhold harr
  have hstep := step_free s hrun hhold harr
  refine ⟨fun hi => ?_, fun hpc hi => ?_⟩
  · rw [hstep, hi]; rfl
  · rw [hstep, s.memRead_plain s.pc hpc, hi]; rfl

/-! ### Which states take a step -/

/-- TRAP takes a next state at every vector, held or not (44_trap.md R160, R170, R172). -/
theorem execTrap_next (v : BitVec 8) (s : State) : ∃ t, execTrap v s = .next t := by
  obtain ⟨rfl, -⟩ | ⟨rfl, -⟩ | ⟨rfl, -⟩ | ⟨rfl, -⟩ | ⟨rfl, -⟩ | ⟨rfl, -⟩ | ⟨-, hv⟩ := serviceOf_cases v
  · exact ⟨_, rfl⟩
  · exact ⟨_, rfl⟩
  · exact (writeString_next putsChars s.link).imp fun _ h => h.2
  · exact ⟨_, rfl⟩
  · exact (writeString_next putspChars s.link).imp fun _ h => h.2
  · exact ⟨_, rfl⟩
  · exact ⟨_, execTrap_unknown v s hv⟩

/-- No instruction faults or is refused, the reserved ones included (60_exceptions.md R185, R186). -/
theorem exec_next (i : Instr) (s : State) : ∃ t, exec i s = .next t := by
  cases i with
  | trap v => exact execTrap_next v s
  | br | addReg | addImm | ld | st | jsr | jsrr | andReg | andImm | ldr | str | rti | not | ldi | sti
  | jmp | res | lea => exact ⟨_, rfl⟩

theorem stepRunning_next (s : State) : ∃ t, stepRunning s = .next t := by
  cases hh : s.hold with
  | none => rw [stepRunning_free s hh]; exact exec_next _ _
  | some k => exact ⟨_, stepRunning_held s k hh⟩

theorem step_halted (s : State) (h : s.run = .halted) : step s = .fault .halted := by
  simp [step, h]

theorem step_aborted (s : State) (h : s.run = .aborted) : step s = .fault .aborted := by
  simp [step, h]

/-- Settles O40: a held step is taken up again, a free one runs an instruction, and both take a next
state. -/
theorem machineStepsExactlyWhileRunning : Obligations.MachineStepsExactlyWhileRunning := by
  unfold Obligations.MachineStepsExactlyWhileRunning
  refine fun s => ⟨fun hrun => ?_, step_halted s, step_aborted s⟩
  rw [step_running s hrun]
  exact stepRunning_next s.deliver

end Sys2Proof.Machine
end

section
/-! PROOFS. The statements of 41_operate.md (R120 to R124). Each of the five instructions takes a next state
that is `setRegCC` of its result, so one lemma gives flags and frame for all (`State.setRegCC_flags_frame`). A
word that is an instruction's own but for the bits its row ignores decodes to it (`decode_eq_of_kept`). -/

namespace Sys2Proof

/-! ### Words that differ from the encoder's in ignored bits -/

/-- Decoding a word that agrees with an instruction's on the bits its row keeps (30_encoding.md R92). -/
theorem decode_eq_of_kept {i : Instr} {r : OpcodeRow} {w : Word} (hr : opcodeRows[i.rowIndex]? = some r)
    (hkept : encode i &&& ~~~r.ignored = w &&& ~~~r.ignored) : decode w = i := by
  obtain ⟨r', hr', hmatch⟩ := exists_row_matches (encode i)
  rw [decode_encode, hr] at hr'
  obtain rfl := Option.some.inj hr'
  have hsame := ignoredBitsChangeNothing r (encode i) w (List.mem_of_getElem? hr) hmatch hkept
  exact hsame.symm.trans (decode_encode i)

/-- A mask that is zero over the middle part, as the register modes of ADD and AND ignore bits [4:3]. -/
theorem and_zero_middle {m n k : Nat} (hi : BitVec m) (x y : BitVec n) (lo : BitVec k) :
    (hi ++ x ++ lo) &&& (BitVec.allOnes m ++ 0#n ++ BitVec.allOnes k) =
      (hi ++ y ++ lo) &&& (BitVec.allOnes m ++ 0#n ++ BitVec.allOnes k) := by
  simp only [BitVec.and_append, BitVec.and_zero]

/-- A mask that is zero over the low part, as NOT ignores bits [5:0]. -/
theorem and_zero_low {m n : Nat} (hi : BitVec m) (x y : BitVec n) :
    (hi ++ x) &&& (BitVec.allOnes m ++ 0#n) = (hi ++ y) &&& (BitVec.allOnes m ++ 0#n) := by
  simp only [BitVec.and_append, BitVec.and_zero]

end Sys2Proof

namespace Sys2Proof.Machine

open State

/-! ### The five instructions -/

/-- A register written and the flags set from it (10_state.md R33): the flags, and everything kept. -/
theorem State.setRegCC_flags_frame (s : State) (dr : RegIdx) (v : Word) :
    CondFor ((s.setRegCC dr v).reg dr) (s.setRegCC dr v).cond ∧ (s.setRegCC dr v).pc = s.pc ∧
      Frame s (s.setRegCC dr v) [dr] [] := by
  refine ⟨?_, setRegCC_pc s dr v, frame_setRegCC s dr v⟩
  rw [setRegCC_reg_self, setRegCC_cond]
  exact condFor_condOf v

/-- Settles O1: the addition of words is modulo 65536. -/
theorem addRegisterModeAddsAndSetsFlags : Obligations.AddRegisterModeAddsAndSetsFlags := by
  unfold Obligations.AddRegisterModeAddsAndSetsFlags
  refine fun dr sr1 sr2 => ⟨fun x => decode_eq_of_kept rfl (and_zero_middle _ 0#2 x sr2), fun s =>
    ⟨s.setRegCC dr (s.reg sr1 + s.reg sr2), rfl, ?_, setRegCC_flags_frame s dr _⟩⟩
  rw [setRegCC_reg_self, BitVec.toNat_add]

/-- Settles O2: the sum is the value written. -/
theorem addImmediateModeAddsAndSetsFlags : Obligations.AddImmediateModeAddsAndSetsFlags := by
  unfold Obligations.AddImmediateModeAddsAndSetsFlags
  exact fun dr sr1 imm5 => ⟨decode_encode (.addImm dr sr1 imm5), fun s =>
    ⟨s.setRegCC dr (s.reg sr1 + sext imm5), rfl, setRegCC_reg_self s dr _, setRegCC_flags_frame s dr _⟩⟩

/-- Settles O3: a bit of the bitwise and. -/
theorem andRegisterModeMasksAndSetsFlags : Obligations.AndRegisterModeMasksAndSetsFlags := by
  unfold Obligations.AndRegisterModeMasksAndSetsFlags
  refine fun dr sr1 sr2 => ⟨fun x => decode_eq_of_kept rfl (and_zero_middle _ 0#2 x sr2), fun s =>
    ⟨s.setRegCC dr (s.reg sr1 &&& s.reg sr2), rfl, fun k => ?_, setRegCC_flags_frame s dr _⟩⟩
  rw [setRegCC_reg_self, BitVec.getLsbD_and]

/-- Settles O4: a bit of the bitwise and, of the immediate already sign-extended. -/
theorem andImmediateModeMasksAndSetsFlags : Obligations.AndImmediateModeMasksAndSetsFlags := by
  unfold Obligations.AndImmediateModeMasksAndSetsFlags
  refine fun dr sr1 imm5 => ⟨decode_encode (.andImm dr sr1 imm5), fun s =>
    ⟨s.setRegCC dr (s.reg sr1 &&& sext imm5), rfl, fun k => ?_, setRegCC_flags_frame s dr _⟩⟩
  rw [setRegCC_reg_self, BitVec.getLsbD_and]

/-- Settles O5: the complement is the difference from the word of sixteen ones. -/
theorem notComplementsAndSetsFlags : Obligations.NotComplementsAndSetsFlags := by
  unfold Obligations.NotComplementsAndSetsFlags
  refine fun dr sr1 => ⟨fun x => decode_eq_of_kept rfl (and_zero_low _ 0x3F#6 x), fun s =>
    ⟨s.setRegCC dr (~~~ s.reg sr1), rfl, ?_, fun k hk => ?_, setRegCC_flags_frame s dr _⟩⟩
  · rw [setRegCC_reg_self]
    exact (BitVec.allOnes_sub_eq_not _).symm
  · simp [hk]

end Sys2Proof.Machine
end

section
/-! PROOFS. The statements of 42_data_movement.md (R131 to R137). LD, LDR and the second half of LDI are one
load, whose effect is said once (`State.loadFrom_effect`); ST, STR and the second half of STI are one plain
store (`State.memWrite_effect`). LDI and STI read their pointer first, and what a read keeps composes with
the effect of what follows it (the `trans` lemmas of the frames). -/

namespace Sys2Proof.Machine

open State

/-! ### Frames one after the other -/

theorem SameRegsBut.trans {s u t : State} {ds : List RegIdx} (h : SameRegsBut s u ds)
    (h' : SameRegsBut u t ds) : SameRegsBut s t ds :=
  fun r hr => (h' r hr).trans (h r hr)

theorem SameMemBut.trans {s u t : State} {as : List Word} (h : SameMemBut s u as)
    (h' : SameMemBut u t as) : SameMemBut s t as :=
  fun a ha => (h' a ha).trans (h a ha)

theorem SameMemBut.mono {s t : State} {as bs : List Word} (hsub : as ⊆ bs) (h : SameMemBut s t as) :
    SameMemBut s t bs :=
  fun a ha => h a (mt (@hsub a) ha)

theorem SameControl.trans {s u t : State} (h : SameControl s u) (h' : SameControl u t) :
    SameControl s t := by
  obtain ⟨hrun, hhold, harr, hparams⟩ := h
  obtain ⟨hrun', hhold', harr', hparams'⟩ := h'
  exact ⟨hrun'.trans hrun, hhold'.trans hhold, harr'.trans harr, hparams'.trans hparams⟩

theorem State.memRead_sameRegsBut (s : State) (a : Word) (ds : List RegIdx) :
    SameRegsBut s (s.memRead a).2 ds :=
  fun r _ => s.memRead_reg a r

theorem State.memRead_sameControl (s : State) (a : Word) : SameControl s (s.memRead a).2 :=
  ⟨s.memRead_run a, s.memRead_hold a, s.memRead_arrivals a, s.memRead_params a⟩

/-! ### Loads -/

/-- Away from KBSR a load is a register written with the stored word (20_memory.md R55). -/
theorem State.loadFrom_plain (s : State) (dr : RegIdx) (ea : Word) (h : ea ≠ kbsrAddr) :
    s.loadFrom dr ea = s.setRegCC dr (s.stored ea) := by
  rw [loadFrom, s.memRead_plain ea h]

/-- All that a load from `ea` does (42_data_movement.md R131, R133). -/
theorem State.loadFrom_effect (s : State) (dr : RegIdx) (ea : Word) :
    let r := s.memRead ea
    let t := s.loadFrom dr ea
    t.reg dr = r.1 ∧ CondFor r.1 t.cond ∧ t.pc = s.pc ∧ SameRegsBut s t [dr] ∧
    SameMemBut r.2 t [] ∧ t.kbq = r.2.kbq ∧ t.out = s.out ∧ SameControl s t ∧
    SameMemBut s t [kbsrAddr, kbdrAddr] ∧
    (ea ≠ kbsrAddr → t.reg dr = s.stored ea ∧ Frame s t [dr] []) := by
  obtain ⟨hreg, hcond, hpc, hregs, hmem, hkbq, hout, hcontrol⟩ := loadFrom_same s dr ea
  have hwords : SameMemBut (s.memRead ea).2 (s.loadFrom dr ea) [] :=
    fun b _ => congrArg (·.read b.toNat) hmem
  refine ⟨hreg, hcond, hpc, hregs, hwords, hkbq, hout, hcontrol,
    (s.memRead_sameMemBut ea).trans (hwords.mono (List.nil_subset _)), fun hea => ?_⟩
  rw [s.loadFrom_plain dr ea hea]
  exact ⟨setRegCC_reg_self s dr _, frame_setRegCC s dr _⟩

/-- Settles O6: the load of LD. -/
theorem ldLoadsPcRelative : Obligations.LdLoadsPcRelative := by
  unfold Obligations.LdLoadsPcRelative
  exact fun dr off => ⟨decode_encode (.ld dr off), fun s =>
    ⟨s.loadFrom dr (s.pc + sext off), rfl, s.loadFrom_effect dr _⟩⟩

/-- Settles O8: the load of LDR. -/
theorem ldrLoadsBaseRelative : Obligations.LdrLoadsBaseRelative := by
  unfold Obligations.LdrLoadsBaseRelative
  exact fun dr baseR off => ⟨decode_encode (.ldr dr baseR off), fun s =>
    ⟨s.loadFrom dr (s.reg baseR + sext off), rfl, s.loadFrom_effect dr _⟩⟩

/-- Settles O7: a load in the state that the pointer read leaves, which away from KBSR is the same state. -/
theorem ldiLoadsThroughPointer : Obligations.LdiLoadsThroughPointer := by
  unfold Obligations.LdiLoadsThroughPointer
  refine fun dr off => ⟨decode_encode (.ldi dr off), ?_⟩
  intro s p
  obtain ⟨hreg, hcond, hpc, hregs, hmem, hkbq, hout, hcontrol, hwords, -⟩ := p.2.loadFrom_effect dr p.1
  refine ⟨p.2.loadFrom dr p.1, rfl, hreg, hcond, hpc.trans (s.memRead_pc _),
    (s.memRead_sameRegsBut _ [dr]).trans hregs, hmem, hkbq, hout.trans (s.memRead_out _),
    (s.memRead_sameControl _).trans hcontrol, (s.memRead_sameMemBut _).trans hwords,
    fun hne hptr => ?_⟩
  rw [show p = (s.stored _, s) from s.memRead_plain _ hne, s.loadFrom_plain dr _ hptr]
  exact ⟨setRegCC_reg_self s dr _, frame_setRegCC s dr _⟩

/-- Settles O9: the address is the value written, and nothing is read. -/
theorem leaComputesAddressAndSetsFlags : Obligations.LeaComputesAddressAndSetsFlags := by
  unfold Obligations.LeaComputesAddressAndSetsFlags
  exact fun dr off => ⟨decode_encode (.lea dr off), fun s =>
    ⟨s.setRegCC dr (s.pc + sext off), rfl, setRegCC_reg_self s dr _, setRegCC_flags_frame s dr _⟩⟩

/-! ### Stores -/

/-- All that a store does, at KBSR and KBDR as anywhere (20_memory.md R59, R60). -/
theorem State.memWrite_effect (s : State) (a v : Word) :
    (s.memWrite a v).stored a = v ∧ (s.memWrite a v).cond = s.cond ∧ (s.memWrite a v).pc = s.pc ∧
    Frame s (s.memWrite a v) [] [a] :=
  ⟨store_stored_self s a v, rfl, rfl, frame_store s a v⟩

/-- Settles O10: the store of ST. -/
theorem stStoresPcRelative : Obligations.StStoresPcRelative := by
  unfold Obligations.StStoresPcRelative
  exact fun sr off => ⟨decode_encode (.st sr off), fun s =>
    ⟨s.memWrite (s.pc + sext off) (s.reg sr), rfl, s.memWrite_effect _ _⟩⟩

/-- Settles O12: the store of STR. -/
theorem strStoresBaseRelative : Obligations.StrStoresBaseRelative := by
  unfold Obligations.StrStoresBaseRelative
  exact fun sr baseR off => ⟨decode_encode (.str sr baseR off), fun s =>
    ⟨s.memWrite (s.reg baseR + sext off) (s.reg sr), rfl, s.memWrite_effect _ _⟩⟩

/-- Settles O11: a store in the state that the pointer read leaves, which away from KBSR is the same state. -/
theorem stiStoresThroughPointer : Obligations.StiStoresThroughPointer := by
  unfold Obligations.StiStoresThroughPointer
  refine fun sr off => ⟨decode_encode (.sti sr off), ?_⟩
  intro s p
  obtain ⟨hword, hcond, hpc, hregs, hwords, hkbq, hout, hcontrol⟩ :=
    p.2.memWrite_effect p.1 (p.2.reg sr)
  refine ⟨p.2.memWrite p.1 (p.2.reg sr), rfl, hword.trans (s.memRead_reg _ sr), hwords,
    hkbq, hcond.trans (s.memRead_cond _), hpc.trans (s.memRead_pc _),
    (s.memRead_sameRegsBut _ []).trans hregs, hout.trans (s.memRead_out _),
    (s.memRead_sameControl _).trans hcontrol,
    ((s.memRead_sameMemBut _).mono (List.subset_cons_self _ _)).trans
      (hwords.mono (List.cons_subset_cons _ (List.nil_subset _))), fun hne => ?_⟩
  rw [show p = (s.stored _, s) from s.memRead_plain _ hne]
  exact ⟨rfl, frame_store s _ _⟩

end Sys2Proof.Machine
end

section
/-! PROOFS. The statements of 43_control.md (R150 to R156). BR and JMP write `pc` alone (`frame_setPc`); JSR
and JSRR write the link and then `pc` (`State.link_setPc_effect`). BR's test, a bitwise and of the mask with
`cond`, is said once per bit and once for the three legal values of `cond`. -/

namespace Sys2Proof

/-- A mask that is zero over two parts, as JMP and JSRR ignore the bits around BaseR. -/
theorem and_zero_around {m n k l : Nat} (hi : BitVec m) (x x' : BitVec n) (mid : BitVec k)
    (y y' : BitVec l) :
    (hi ++ x ++ mid ++ y) &&& (BitVec.allOnes m ++ 0#n ++ BitVec.allOnes k ++ 0#l) =
      (hi ++ x' ++ mid ++ y') &&& (BitVec.allOnes m ++ 0#n ++ BitVec.allOnes k ++ 0#l) := by
  simp only [BitVec.and_append, BitVec.and_zero]

end Sys2Proof

namespace Sys2Proof.Machine

open State

/-- A write of `pc` keeps every register and every word (10_state.md R25). -/
theorem frame_setPc (s : State) (v : Word) : Frame s (s.setPc v) [] [] :=
  ⟨fun _ _ => rfl, fun _ _ => rfl, rfl, rfl, rfl, rfl, rfl, rfl⟩

/-! ### BR -/

/-- The test of BR, bit by bit (30_encoding.md R87). -/
theorem State.branchTaken_iff (s : State) (nzp : BitVec 3) : s.branchTaken nzp = true ↔
    ∃ k, k < 3 ∧ nzp.getLsbD k = true ∧ s.cond.getLsbD k = true := by
  have hbit (k : Nat) (hk : k < 3) : (nzp &&& s.cond.extractLsb' 0 3).getLsbD k =
      (nzp.getLsbD k && s.cond.getLsbD k) := by
    rw [BitVec.getLsbD_and, BitVec.getLsbD_extractLsb', decide_eq_true hk, Nat.zero_add, Bool.true_and]
  rw [branchTaken, bne_iff_ne]
  constructor
  · intro hne
    by_contra hno
    refine hne (BitVec.eq_of_getLsbD_eq fun k hk => ?_)
    rw [hbit k hk, BitVec.getLsbD_zero, Bool.eq_false_iff, ne_eq, Bool.and_eq_true]
    exact fun ⟨hn, hc⟩ => hno ⟨k, hk, hn, hc⟩
  · rintro ⟨k, hk, hn, hc⟩ hzero
    have hand := hbit k hk
    simp [hzero, hn, hc] at hand

/-- The test of BR for the three legal values of `cond` (43_control.md R150). -/
theorem State.branchTaken_iff_of_condOneHot {s : State} (hs : s.condOneHot) (nzp : BitVec 3) :
    s.branchTaken nzp = true ↔
      (nzp.getLsbD 2 = true ∧ s.cond = 0x0004#16) ∨ (nzp.getLsbD 1 = true ∧ s.cond = 0x0002#16) ∨
        (nzp.getLsbD 0 = true ∧ s.cond = 0x0001#16) := by
  rw [branchTaken]
  obtain hc | hc | hc := hs <;> rw [hc] <;> revert nzp <;> decide

/-- Settles O13: BR writes `pc` by its test, whose two readings agree. -/
theorem brBranchesOnConditionMask : Obligations.BrBranchesOnConditionMask := by
  unfold Obligations.BrBranchesOnConditionMask
  refine fun nzp off => ⟨decode_encode (.br nzp off), fun s =>
    ⟨s.setPc (if s.branchTaken nzp then s.pc + sext off else s.pc), execBr_eq_setPc nzp off s,
      fun h => ?_, fun h => ?_, fun hcond => ?_, rfl, frame_setPc s _⟩⟩
  · exact if_pos ((s.branchTaken_iff nzp).mpr h)
  · exact if_neg (mt (s.branchTaken_iff nzp).mp h)
  · rw [setPc_pc]
    simp only [branchTaken_iff_of_condOneHot hcond]

/-! ### JMP -/

theorem exec_jmp (baseR : RegIdx) (s : State) : exec (.jmp baseR) s = .next (s.setPc (s.reg baseR)) := rfl

/-- The word of RET is `JMP R7` (43_control.md R153). -/
theorem decode_ret : decode 0xC1C0#16 = .jmp 7#3 := decode_encode (.jmp 7#3)

/-- Settles O14: the target is the register's value, and `pc` alone is written. -/
theorem jmpGoesToBaseRegister : Obligations.JmpGoesToBaseRegister := by
  unfold Obligations.JmpGoesToBaseRegister
  exact ⟨fun baseR => ⟨fun x y => decode_eq_of_kept rfl (and_zero_around _ 0#3 x baseR 0#6 y), fun s =>
    ⟨s.setPc (s.reg baseR), exec_jmp baseR s, rfl, rfl, frame_setPc s _⟩⟩, decode_ret⟩

/-! ### JSR and JSRR -/

/-- What JSR and JSRR do but for the choice of the target: the link of 43_control.md R156, and `cond` and
everything else kept. -/
theorem State.link_setPc_effect (s : State) (target : Word) :
    (s.link.setPc target).reg 7#3 = s.pc ∧ (s.link.setPc target).pc = target ∧
    (s.link.setPc target).cond = s.cond ∧ Frame s (s.link.setPc target) [7#3] [] :=
  ⟨setReg_reg_self s linkReg s.pc, rfl, rfl, frame_setReg s linkReg s.pc⟩

theorem exec_jsr (off : BitVec 11) (s : State) :
    exec (.jsr off) s = .next (s.link.setPc (s.pc + sext off)) := rfl

/-- The base register is read after the link is written (43_control.md R155). -/
theorem exec_jsrr (baseR : RegIdx) (s : State) :
    exec (.jsrr baseR) s = .next (s.link.setPc (if baseR = 7#3 then s.pc else s.reg baseR)) := by
  rw [← s.link_reg baseR]; rfl

/-- Settles O15: the link and the PC-relative target. -/
theorem jsrLinksAndJumpsRelative : Obligations.JsrLinksAndJumpsRelative := by
  unfold Obligations.JsrLinksAndJumpsRelative
  exact fun off => ⟨decode_encode (.jsr off), fun s =>
    ⟨s.link.setPc (s.pc + sext off), exec_jsr off s, s.link_setPc_effect _⟩⟩

/-- Settles O16: the link, and the base register as it is after the link. -/
theorem jsrrLinksThenReadsBase : Obligations.JsrrLinksThenReadsBase := by
  unfold Obligations.JsrrLinksThenReadsBase
  exact fun baseR => ⟨fun x y => decode_eq_of_kept rfl (and_zero_around _ 0#2 x baseR 0#6 y), fun s =>
    ⟨s.link.setPc (if baseR = 7#3 then s.pc else s.reg baseR), exec_jsrr baseR s, s.link_setPc_effect _⟩⟩

/-! ### Call and return -/

/-- A step that nothing holds or precedes runs the word stored at `pc` (40_step_cycle.md R111, R112). -/
theorem step_of_stored {s : State} {i : Instr} (hrun : s.run = .running) (hhold : s.hold = none)
    (harr : s.arrivals = []) (hpc : s.pc ≠ kbsrAddr) (hi : decode (s.stored s.pc) = i) :
    step s = exec i (s.setPc (s.pc + 1#16)) := by
  obtain ⟨-, hplain⟩ := stepRunsTheDecodedInstruction s i hrun hhold harr
  exact hplain hpc hi

/-- Settles O17: the step of the JSR leaves the return address in R7, and the step of the RET goes there. -/
theorem jsrThenRetReturns : Obligations.JsrThenRetReturns := by
  unfold Obligations.JsrThenRetReturns
  intro s t u off hrun hhold harr hpc hword hstep urun uhold uarr upc uword hkept
  have hcall := step_of_stored hrun hhold harr hpc
    ((congrArg decode hword).trans (decode_encode (.jsr off)))
  have hlink : t.reg 7#3 = s.pc + 1#16 := by
    rw [hcall, exec_jsr] at hstep
    obtain rfl := Host.Outcome.next.inj hstep
    obtain ⟨hreg, -⟩ := (s.setPc (s.pc + 1#16)).link_setPc_effect (s.pc + 1#16 + sext off)
    exact hreg
  have hret := step_of_stored urun uhold uarr upc ((congrArg decode uword).trans decode_ret)
  rw [hret, exec_jmp, setPc_reg, hkept, hlink]
  rfl

end Sys2Proof.Machine
end

section
/-! PROOFS. The statements of 44_trap.md (R160 to R172). What a service does after the link is one of three
things, each said once: characters at the end of the output (`State.link_outChars_effect`: OUT, HALT, the
prompt of IN and, with none, an unknown vector), then for GETC and IN a key read that ends or is held
(`State.readKey_pending_effect`, `State.readKey_held_effect`), and for PUTS and PUTSP the walk over a string,
which ends in the state that the reads of the string leave, with its characters written
(`stringWalk_of_readsFrom`). -/

namespace Sys2Proof.Machine

open State

/-! ### The services that only write, and the unknown vectors -/

/-- The return address (44_trap.md R160). -/
theorem State.link_reg_self (s : State) : s.link.reg 7#3 = s.pc := setReg_reg_self s linkReg s.pc

/-- The link and then characters written: what is changed, and everything kept (44_trap.md R169). -/
theorem State.link_outChars_effect (s : State) (cs : List Byte) :
    let t := s.link.outChars cs
    t.out = s.out ++ cs ∧ t.reg 7#3 = s.pc ∧ t.cond = s.cond ∧ t.pc = s.pc ∧ SameRegsBut s t [7#3] ∧
    SameMemBut s t [] ∧ t.kbq = s.kbq ∧ SameControl s t := by
  obtain ⟨hregs, hmem, hkbq, -, hcontrol⟩ := frame_setReg s linkReg s.pc
  rw [outChars_eq]
  exact ⟨rfl, s.link_reg_self, rfl, rfl, hregs, hmem, hkbq, hcontrol⟩

theorem lowByte_eq_setWidth (w : Word) : lowByte w = w.setWidth 8 :=
  (BitVec.setWidth_eq_extractLsb' (by decide)).symm

theorem exec_trap_out (s : State) :
    exec (.trap 0x21#8) s = .next (s.link.outChars [(s.reg 0#3).setWidth 8]) := by
  have hr0 : s.link.reg serviceReg = s.reg 0#3 := setReg_reg_other s linkReg serviceReg s.pc (by decide)
  rw [← lowByte_eq_setWidth, ← hr0]
  rfl

/-- Settles O23: one character after the link. -/
theorem outWritesLowByteOfR0 : Obligations.OutWritesLowByteOfR0 := by
  unfold Obligations.OutWritesLowByteOfR0
  exact fun s => ⟨_, exec_trap_out s, s.link_outChars_effect _⟩

theorem exec_trap_halt (s : State) :
    exec (.trap 0x25#8) s = .next ((s.link.outChars s.params.haltNotice).setRun .halted) := by
  change Host.Outcome.next ((s.link.setRun .halted).outChars s.params.haltNotice) = _
  rw [outChars_eq, outChars_eq]
  rfl

/-- Settles O27: the notice after the link, and `run`. -/
theorem haltStopsAndWritesNotice : Obligations.HaltStopsAndWritesNotice := by
  unfold Obligations.HaltStopsAndWritesNotice
  intro s
  obtain ⟨hout, hlink, hcond, hpc, hregs, hmem, hkbq, -, hhold, harr, hparams⟩ :=
    s.link_outChars_effect s.params.haltNotice
  exact ⟨_, exec_trap_halt s, rfl, hout, hlink, hpc, hcond, hregs, hmem, hkbq, hhold, harr, hparams⟩

theorem serviceOf_eq_none {v : BitVec 8} : v.toNat < 0x20 ∨ 0x25 < v.toNat → serviceOf v = none := by
  revert v; decide

/-- Settles O19: with no service there is the link alone. -/
theorem trapUnknownVectorOnlyLinks : Obligations.TrapUnknownVectorOnlyLinks := by
  unfold Obligations.TrapUnknownVectorOnlyLinks
  exact fun v s hv => ⟨s.link, execTrap_unknown v s (serviceOf_eq_none hv),
    s.link_reg_self, rfl, rfl, frame_setReg s linkReg s.pc⟩

/-! ### GETC and IN -/

theorem SameRegsBut.mono {s t : State} {ds es : List RegIdx} (hsub : ds ⊆ es) (h : SameRegsBut s t ds) :
    SameRegsBut s t es :=
  fun r hr => h r (mt (@hsub r) hr)

theorem zext8_eq_append (c : Byte) : zext8 c = 0x00#8 ++ c := by
  simp [zext8, BitVec.setWidth_eq_append]

/-- A character's code is zero or positive: its bit 15 is clear (10_state.md R33, 44_trap.md R162). -/
theorem condOf_zext8 (c : Byte) :
    condOf (zext8 c) = if c = 0x00#8 then 0x0002#16 else 0x0001#16 := by
  have hmsb : (zext8 c).msb = false := by simp [zext8, BitVec.msb_setWidth]
  have hzero : zext8 c = 0x0000#16 ↔ c = 0x00#8 := by unfold zext8; bv_omega
  simp only [condOf, hmsb, hzero, Bool.false_eq_true, if_false]
  rfl

/-- What a service writes of the character it has read: IN echoes it (44_trap.md R162, R166). -/
def Hold.echo : Hold → Byte → List Byte
  | .getc, _ => []
  | .input, c => [c]

/-- A key read with a character pending, as a flag-setting write of R0 (44_trap.md R162, R166). -/
theorem State.readKey_eq_setRegCC (s : State) (k : Hold) (c : Byte) (q : List Byte) (hq : s.kbq = c :: q) :
    s.readKey k =
      State.setRegCC { s with kbq := q, hold := none, out := s.out ++ k.echo c } serviceReg (zext8 c) := by
  rw [s.readKey_cons k c q hq]
  cases k with
  | getc => rw [Hold.echo, List.append_nil]; rfl
  | input => rfl

/-- GETC and IN with a character pending: the link, the prompt `cs`, and the read (44_trap.md R162, R166). -/
theorem State.readKey_pending_effect (s : State) (k : Hold) (cs : List Byte) (c : Byte) (q : List Byte)
    (hq : s.kbq = c :: q) :
    let t := (s.link.outChars cs).readKey k
    t.reg 0#3 = 0x00#8 ++ c ∧ t.cond = (if c = 0x00#8 then 0x0002#16 else 0x0001#16) ∧ t.kbq = q ∧
    t.out = s.out ++ cs ++ k.echo c ∧ t.reg 7#3 = s.pc ∧ t.pc = s.pc ∧ SameRegsBut s t [0#3, 7#3] ∧
    SameMemBut s t [] ∧ t.run = s.run ∧ t.hold = none ∧ t.arrivals = s.arrivals ∧ t.params = s.params := by
  obtain ⟨hout, hlink, -, hpc, hregs, hmem, hkbq, hrun, -, harr, hparams⟩ := s.link_outChars_effect cs
  obtain ⟨hr0, -⟩ := (s.link.outChars cs).readKey_same k
  rw [readKey_eq_setRegCC _ k c q (hkbq.trans hq)] at hr0 ⊢
  refine ⟨(setRegCC_reg_self _ _ _).trans (zext8_eq_append c),
    (setRegCC_cond _ _ _).trans (condOf_zext8 c), rfl, congrArg (· ++ k.echo c) hout,
    (hr0 7#3 (by decide)).trans hlink, hpc,
    (hregs.mono (List.subset_cons_self _ _)).trans (hr0.mono (List.cons_subset_cons _ (List.nil_subset _))),
    hmem, hrun, rfl, harr, hparams⟩

/-- GETC and IN with no character pending: the link, the prompt `cs`, and the wait (44_trap.md R170). -/
theorem State.readKey_held_effect (s : State) (k : Hold) (cs : List Byte) (hq : s.kbq = []) :
    let t := (s.link.outChars cs).readKey k
    t.hold = some k ∧ t.out = s.out ++ cs ∧ t.reg 7#3 = s.pc ∧ t.pc = s.pc ∧ t.cond = s.cond ∧
    SameRegsBut s t [7#3] ∧ SameMemBut s t [] ∧ t.kbq = [] ∧ t.run = s.run ∧
    t.arrivals = s.arrivals ∧ t.params = s.params := by
  obtain ⟨hout, hlink, hcond, hpc, hregs, hmem, hkbq, hrun, -, harr, hparams⟩ := s.link_outChars_effect cs
  rw [readKey_nil _ k (hkbq.trans hq)]
  exact ⟨rfl, hout, hlink, hpc, hcond, hregs, hmem, hkbq.trans hq, hrun, harr, hparams⟩

/-- Settles O20: a key read after the link, with nothing written. -/
theorem getcReadsOneCharacter : Obligations.GetcReadsOneCharacter := by
  unfold Obligations.GetcReadsOneCharacter
  refine fun s => ⟨fun c q hq => ?_, fun hq => ?_⟩
  · obtain ⟨hr0, hcond, hkbq, hout, hrest⟩ := s.readKey_pending_effect .getc [] c q hq
    exact ⟨_, rfl, hr0, hcond, hkbq, hout.trans (by simp [Hold.echo]), hrest⟩
  · obtain ⟨hhold, hout, hrest⟩ := s.readKey_held_effect .getc [] hq
    exact ⟨_, rfl, hhold, hout.trans (List.append_nil _), hrest⟩

/-- Settles O21: a key read after the link and the prompt. -/
theorem inPromptsReadsAndEchoes : Obligations.InPromptsReadsAndEchoes := by
  unfold Obligations.InPromptsReadsAndEchoes
  exact fun s =>
    ⟨fun c q hq => ⟨_, rfl, s.readKey_pending_effect .input s.params.inPrompt c q hq⟩,
      fun hq => ⟨_, rfl, s.readKey_held_effect .input s.params.inPrompt hq⟩⟩

/-! ### PUTS and PUTSP -/

/-- Reads that return at least one word, taken apart at the first (20_memory.md R62). -/
theorem State.readsFrom_eq_cons {s u : State} {n : Nat} {a w : Word} {ws : List Word}
    (h : s.readsFrom n a = (w :: ws, u)) :
    ∃ m, (s.memRead a).1 = w ∧ (s.memRead a).2.readsFrom m (a + 1#16) = (ws, u) := by
  cases n with
  | zero => cases h
  | succ m => cases h; exact ⟨m, rfl, rfl⟩

/-- Reads that return no word are none. -/
theorem State.readsFrom_eq_nil {s u : State} {n : Nat} {a : Word} (h : s.readsFrom n a = ([], u)) :
    u = s := by
  cases n with
  | zero => cases h; rfl
  | succ m => cases h

/-- A walk over a string whose words are `ws` ends in the state that the reads of the string leave, with
the characters of `ws` written (44_trap.md R164, R167). The walk may start in a state `v` that is `s` but
for what no read looks at. -/
theorem stringWalk_of_readsFrom (chars : Word → List Byte) {fuel n : Nat} {a : Word} {s u v t : State}
    {ws : List Word} (hr : s.readsFrom n a = (ws ++ [0x0000#16], u)) (hws : ∀ w ∈ ws, w ≠ 0x0000#16)
    (h : stringWalk chars fuel a v = some t) (hm : v.mem = s.mem) (hq : v.kbq = s.kbq) :
    t = { v with mem := u.mem, kbq := u.kbq, out := v.out ++ ws.flatMap chars } := by
  induction ws generalizing fuel n a s v with
  | nil =>
    obtain ⟨m, hfirst, hrest⟩ := readsFrom_eq_cons hr
    obtain rfl := readsFrom_eq_nil hrest
    cases fuel with
    | zero => cases h
    | succ fuel =>
      simp only [stringWalk, memRead_congr s v a hm hq, hfirst, if_true] at h
      cases h
      simp
  | cons w ws ih =>
    obtain ⟨m, hfirst, hrest⟩ := readsFrom_eq_cons hr
    obtain ⟨hw, hws⟩ := List.forall_mem_cons.mp hws
    cases fuel with
    | zero => cases h
    | succ fuel =>
      simp only [stringWalk, memRead_congr s v a hm hq, hfirst, if_neg hw, outChars_eq] at h
      rw [ih hrest hws h rfl rfl, List.flatMap_cons, List.append_assoc]

/-- PUTS and PUTSP on a string whose words are `ws`: what is changed, and everything kept (44_trap.md R164,
R167, R169). -/
theorem writeString_link_effect (chars : Word → List Byte) {s u : State} {n : Nat} {ws : List Word}
    (hr : s.readsFrom n (s.reg 0#3) = (ws ++ [0x0000#16], u)) (hws : ∀ w ∈ ws, w ≠ 0x0000#16) :
    ∃ t, writeString chars s.link = .next t ∧
      t.out = s.out ++ ws.flatMap chars ∧ t.reg 7#3 = s.pc ∧ t.cond = s.cond ∧ t.pc = s.pc ∧
      SameRegsBut s t [7#3] ∧ SameMemBut u t [] ∧ t.kbq = u.kbq ∧ SameControl s t := by
  obtain ⟨hregs, -, -, -, hcontrol⟩ := frame_setReg s linkReg s.pc
  obtain ⟨t, hwalk, hnext⟩ := writeString_next chars s.link
  rw [s.link_reg serviceReg, if_neg (by decide)] at hwalk
  obtain rfl := stringWalk_of_readsFrom chars hr hws hwalk rfl rfl
  exact ⟨_, hnext, rfl, s.link_reg_self, rfl, rfl, hregs, fun _ _ => rfl, rfl, hcontrol⟩

theorem flatMap_putsChars (ws : List Word) :
    ws.flatMap putsChars = ws.map (fun w : Word => w.setWidth 8) := by
  simp only [← lowByte_eq_setWidth]
  exact List.flatMap_pure_eq_map lowByte ws

/-- Settles O24: the walk of PUTS, which writes the low byte of each word. -/
theorem putsWritesWordsUpToFirstZero : Obligations.PutsWritesWordsUpToFirstZero := by
  unfold Obligations.PutsWritesWordsUpToFirstZero
  intro s u n ws hr hws
  obtain ⟨t, hnext, hout, hrest⟩ := writeString_link_effect putsChars hr hws
  exact ⟨t, hnext, hout.trans (by rw [flatMap_putsChars]), hrest⟩

/-- The characters of a packed word, by shifts (44_trap.md R167). -/
theorem putspChars_eq_shift (w : Word) : putspChars w =
    if w >>> 8 = 0x0000#16 then [w.setWidth 8] else [w.setWidth 8, (w >>> 8).setWidth 8] := by
  have hhigh : highByte w = (w >>> 8).setWidth 8 := by
    ext k hk
    simp [highByte]
  have hzero : (w >>> 8).setWidth 8 = 0x00#8 ↔ w >>> 8 = 0x0000#16 := by bv_omega
  simp only [putspChars, hhigh, lowByte_eq_setWidth, hzero]
  split <;> rfl

/-- Settles O25: the walk of PUTSP, which writes the one or two characters of each word. -/
theorem putspWritesPackedBytesUpToFirstZero : Obligations.PutspWritesPackedBytesUpToFirstZero := by
  unfold Obligations.PutspWritesPackedBytesUpToFirstZero
  intro s u n ws hr hws
  simp only [← putspChars_eq_shift]
  exact writeString_link_effect putspChars hr hws

/-- Reads that do not meet KBSR return the stored words and change nothing (20_memory.md R55). -/
theorem State.readsFrom_plain (s : State) (n : Nat) (a : Word)
    (h : ∀ k, k < n → a + BitVec.ofNat 16 k ≠ kbsrAddr) :
    s.readsFrom n a = ((List.range n).map (fun k => s.stored (a + BitVec.ofNat 16 k)), s) := by
  induction n generalizing a with
  | zero => rfl
  | succ n ih =>
    have hnext (k : Nat) : a + 1#16 + BitVec.ofNat 16 k = a + BitVec.ofNat 16 (k + 1) := by
      rw [Nat.add_comm, BitVec.ofNat_add, BitVec.add_assoc]
    have ha : a ≠ kbsrAddr := by simpa using h 0 (Nat.succ_pos n)
    have hrest := ih (a + 1#16) fun k hk => hnext k ▸ h (k + 1) (Nat.succ_lt_succ hk)
    simp only [hnext] at hrest
    simp [readsFrom, s.memRead_plain a ha, hrest, List.range_succ_eq_map]

/-- Settles O26: the reads of such a string are lookups, so the state they leave is `s`. -/
theorem putsWritesPlainString : Obligations.PutsWritesPlainString := by
  unfold Obligations.PutsWritesPlainString
  intro s n _ hkbsr hword hend
  have hr := s.readsFrom_plain (n + 1) (s.reg 0#3) fun k hk => hkbsr k (Nat.le_of_lt_succ hk)
  rw [List.range_succ, List.map_append, List.map_singleton, hend] at hr
  obtain ⟨t, hnext, hout, -, -, -, -, hmem, hkbq, -⟩ :=
    putsWritesWordsUpToFirstZero s s n _ hr (by simpa using hword)
  exact ⟨t, hnext, by rw [hout, List.map_map]; rfl, hmem, hkbq⟩

/-! ### The entry of TRAP -/

/-- GETC and IN leave the link, the schedule and the texts alone, held or not (44_trap.md R160, R169). -/
theorem State.readKey_link_arrivals_params (s : State) (k : Hold) (cs : List Byte) :
    let t := (s.link.outChars cs).readKey k
    t.reg 7#3 = s.pc ∧ t.arrivals = s.arrivals ∧ t.params = s.params := by
  cases hq : s.kbq with
  | nil =>
    obtain ⟨-, -, hlink, -, -, -, -, -, -, hkept⟩ := s.readKey_held_effect k cs hq
    exact ⟨hlink, hkept⟩
  | cons c q =>
    obtain ⟨-, -, -, -, hlink, -, -, -, -, -, hkept⟩ := s.readKey_pending_effect k cs c q hq
    exact ⟨hlink, hkept⟩

/-- The string services leave the link, the schedule and the texts alone (44_trap.md R169). -/
theorem writeString_link_arrivals_params {chars : Word → List Byte} {s t : State}
    (h : writeString chars s.link = .next t) :
    t.reg 7#3 = s.pc ∧ t.arrivals = s.arrivals ∧ t.params = s.params := by
  obtain ⟨hregs, -, -, -, -, harr, hparams, -⟩ :=
    stringWalk_same chars _ _ s.link t ((writeString_eq_next_iff chars s.link t).mp h)
  exact ⟨by rw [reg, hregs]; exact s.link_reg_self, harr, hparams⟩

/-- No service overwrites the link, the schedule or the texts (44_trap.md R160, R169). -/
theorem execTrap_link_arrivals_params {v : BitVec 8} {s t : State} (h : execTrap v s = .next t) :
    t.reg 7#3 = s.pc ∧ t.arrivals = s.arrivals ∧ t.params = s.params := by
  obtain ⟨-, rfl⟩ | ⟨-, rfl⟩ | ⟨-, hw⟩ | ⟨-, rfl⟩ | ⟨-, hw⟩ | ⟨-, rfl⟩ | ⟨-, rfl⟩ := execTrap_cases h
  · exact s.readKey_link_arrivals_params .getc []
  · exact ⟨s.link_reg_self, rfl, rfl⟩
  · exact writeString_link_arrivals_params hw
  · exact s.readKey_link_arrivals_params .input s.params.inPrompt
  · exact writeString_link_arrivals_params hw
  · rw [outChars_eq]; exact ⟨s.link_reg_self, rfl, rfl⟩
  · exact ⟨s.link_reg_self, rfl, rfl⟩

theorem trap_writesRegs_subset (v : BitVec 8) : (Instr.trap v).writesRegs ⊆ [0#3, 7#3] := by
  simp only [Instr.writesRegs]
  split <;> simp

/-- Settles O18: the link by the cases of the services, the rest by what every instruction keeps
(`exec_effect`, `execTrap_stored`). -/
theorem trapEntryLinksAndKeepsPc : Obligations.TrapEntryLinksAndKeepsPc := by
  unfold Obligations.TrapEntryLinksAndKeepsPc
  refine fun v => ⟨fun x => decode_eq_of_kept rfl (and_zero_middle _ 0#4 x v), fun s t h => ?_⟩
  obtain ⟨hlink, harr, hparams⟩ := execTrap_link_arrivals_params h
  have heff := exec_effect h
  refine ⟨hlink, heff.pc rfl, heff.regs.mono (trap_writesRegs_subset v), fun a ha => ?_, harr, hparams,
    fun hgetc hin => ⟨heff.regs 0#3 ?_, ?_⟩, fun hhalt => ?_⟩
  · obtain ⟨hsr, hdr⟩ : a ≠ kbsrAddr ∧ a ≠ kbdrAddr := by simpa [kbsrAddr, kbdrAddr] using ha
    exact execTrap_stored h hsr hdr
  · simp [Instr.writesRegs, hgetc, hin]
  · exact onlyListedInstructionsSetCond _ s t h (by simp [Instr.setsCond, hgetc, hin])
  · simpa [Instr.wellFormed, hhalt] using heff.run

end Sys2Proof.Machine
end

section
/-! PROOFS. The statements of 45_reserved.md (R180 to R182): what RTI and RES do, and that a run which fetches
neither of them meets no fatal end (R185). -/

namespace Sys2Proof.Machine

open State

/-- A step cannot meet the fatal end unless it fetches a reserved opcode (45_reserved.md R182): that is the
first half of `runEndsOnlyByHaltOrReserved`, and only a running state takes a step. -/
theorem step_not_endedFatally {s t : State} (h : step s = .next t)
    (hfetch : s.run = .running → s.hold = none → (decode s.deliver.fetch.1).wellFormed = true) :
    ¬ t.endedFatally := by
  intro hfatal
  obtain ⟨hrun, -⟩ := step_cases h
  obtain ⟨haborts, -⟩ := runEndsOnlyByHaltOrReserved s t h
  obtain ⟨hhold, hreserved⟩ := haborts.mp hfatal
  exact Bool.false_ne_true (hreserved.symm.trans (hfetch hrun hhold))

/-- Settles O46, by the last step to the state reached: a running state has not ended, and a step from a state
of the run does not abort. -/
theorem runWithoutReservedFetchIsSafe : Obligations.RunWithoutReservedFetchIsSafe := by
  unfold Obligations.RunWithoutReservedFetchIsSafe
  intro s hrun hfetch t ht
  cases ht with
  | refl => simp [endedFatally, hrun]
  | step hu h => exact step_not_endedFatally h (hfetch _ hu)

theorem exec_rti (s : State) : exec .rti s = .next (s.setRun .aborted) := rfl

theorem exec_res (s : State) : exec .res s = .next (s.setRun .aborted) := rfl

/-- Settles O28: both rows ignore the low twelve bits, and both instructions raise the core's one exception. -/
theorem reservedOpcodesAbort : Obligations.ReservedOpcodesAbort := by
  unfold Obligations.ReservedOpcodesAbort
  refine ⟨fun x => ⟨?_, ?_⟩, fun s => ⟨exec_rti s, exec_res s⟩⟩
  · exact decode_eq_of_kept rfl (and_zero_low 0b1000#4 0#12 x)
  · exact decode_eq_of_kept rfl (and_zero_low 0b1101#4 0#12 x)

end Sys2Proof.Machine
end

section
/-! PROOFS. The statements of 60_exceptions.md about a held step (R193): while nothing is typed the key read
waits where it is (`step_held_waits`), and once characters are typed it ends as a read that never waited
(`step_readKey_typed`), whatever GETC or IN did before it. -/

namespace Sys2Proof.Machine

open State

/-- A step of a held state is the host's typing and then the key read, taken up again (40_step_cycle.md R116,
60_exceptions.md R193). -/
theorem step_held {s : State} {k : Hold} (hrun : s.run = .running) (hhold : s.hold = some k) :
    step s = .next (s.deliver.readKey k) := by
  rw [step_running s hrun, stepRunning_held _ k (by simp [hhold])]

/-- A held step before which the host types nothing changes the host's schedule alone
(60_exceptions.md R193). -/
theorem step_held_waits {s : State} {k : Hold} (hrun : s.run = .running) (hhold : s.hold = some k)
    (hq : s.kbq = []) (hnone : s.arrivals.headD [] = []) :
    step s = .next (s.setArrivals s.arrivals.tail) := by
  have hdeliver : s.deliver = s.setArrivals s.arrivals.tail := by
    rw [deliver_eq, hnone, List.append_nil]; rfl
  have hwaits : s.readKey k = s := by rw [s.readKey_nil k hq, ← hhold]; rfl
  rw [step_held hrun hhold, hdeliver, setArrivals_readKey, hwaits]

/-- A key read that ends lifts the hold, so it does the same in a held state (44_trap.md R170). -/
theorem State.setHold_readKey_cons (s : State) (h : Option Hold) (k : Hold) {c : Byte} {q : List Byte}
    (hq : s.kbq = c :: q) : (s.setHold h).readKey k = s.readKey k := by
  rw [s.readKey_cons k c q hq, (s.setHold h).readKey_cons k c q hq]
  rfl

/-- A key read that was held ends, once characters are typed, as it does with them pending from the start
(44_trap.md R170, 60_exceptions.md R193). -/
theorem step_readKey_typed {s : State} (k : Hold) (c : Byte) (q : List Byte) (hrun : s.run = .running)
    (hq : s.kbq = []) (harr : s.arrivals = []) :
    step ((s.readKey k).setArrivals [c :: q]) = .next ((s.setHost (c :: q) s.arrivals).readKey k) := by
  have hempty : ((s.setHold (some k)).setArrivals [c :: q]).kbq = [] := hq
  have hdeliver : ((s.setHold (some k)).setArrivals [c :: q]).deliver =
      (s.setHost (c :: q) s.arrivals).setHold (some k) := by
    rw [deliver_cons _ (c :: q) [] rfl, hempty, harr]; rfl
  rw [s.readKey_nil k hq, step_held (s := (s.setHold (some k)).setArrivals _) hrun rfl, hdeliver,
    setHold_readKey_cons _ _ k rfl]

/-- Settles O22: GETC is the key read after the link, IN the key read after the link and the prompt, and
neither of these looks at the queue. -/
theorem heldStepEndsAsIfTypedBefore : Obligations.HeldStepEndsAsIfTypedBefore := by
  unfold Obligations.HeldStepEndsAsIfTypedBefore
  refine ⟨fun s k hrun hhold hq => ⟨fun harr => ?_, fun later harr => ?_⟩,
    fun s t v c q hv hrun _ hq harr h => ?_⟩
  · have hself : s.setArrivals s.arrivals.tail = s := by rw [harr, List.tail_nil, ← harr]; rfl
    rw [step_held_waits hrun hhold hq (by rw [harr]; rfl), hself]
  · rw [step_held_waits hrun hhold hq (by rw [harr]; rfl), harr]
    rfl
  · obtain rfl | rfl := hv
    · obtain rfl := Host.Outcome.next.inj h
      exact step_readKey_typed (s := s.link) .getc c q hrun hq harr
    · obtain rfl := Host.Outcome.next.inj h
      have hprompt := s.link.setHost_outChars (c :: q) s.arrivals s.params.inPrompt
      obtain ⟨-, -, -, -, -, -, hkbq, hsrun, -, hsarr, -⟩ := s.link_outChars_effect s.params.inPrompt
      have hread := step_readKey_typed .input c q (hsrun.trans hrun) (hkbq.trans hq) (hsarr.trans harr)
      rw [hsarr, ← hprompt] at hread
      exact hread

end Sys2Proof.Machine
end

section
/-! PROOFS. The statements of 70_reset_and_hazards.md about program images (R204 to R206). Both rest on
what one image does to the memory under it (`loadImage_fits`): the one image of R205 is a later image over
none, so its statement is a case of the one about later images. -/

namespace Sys2Proof.Machine

/-- An image that fits, over any memory: its words stand from its origin on, and every other word is as
before (70_reset_and_hazards.md R204, R205). -/
theorem Memory.loadImage_fits (m : Memory) (o : Word) (ws : List Word) (h : o.toNat + ws.length ≤ 65536) :
    ∃ m', m.loadImage ((o :: ws).flatMap (fun w : Word => [(w >>> 8).setWidth 8, w.setWidth 8])) = some m' ∧
      (∀ (k : Nat) (v : Word), ws[k]? = some v → m'.read (o.toNat + k) = v) ∧
      ∀ a, a < o.toNat ∨ o.toNat + ws.length ≤ a → m'.read a = m.read a := by
  have hload : m.loadImage ((o :: ws).flatMap (fun w : Word => [(w >>> 8).setWidth 8, w.setWidth 8])) =
      m.loadWords o.toNat ws := by rw [loadImage, bigEndianWords_bytes]
  rw [hload]
  exact m.loadWords_fits ws o.toNat h

/-- A state that images are loaded into is the reset state over the memory they leave (R201, R204). -/
theorem State.bootImages_eq_some {images : List (List Byte)} {s : State} :
    State.bootImages images = some s ↔ ∃ m, Memory.loadImages [] images = some m ∧ State.boot m = s :=
  Option.map_eq_some_iff

/-- Settles O60: the last image is loaded over the memory that the images before it leave, and the rest of
the state is the reset state with either memory. -/
theorem laterImagesOverwriteEarlierOnes : Obligations.LaterImagesOverwriteEarlierOnes := by
  unfold Obligations.LaterImagesOverwriteEarlierOnes
  refine ⟨rfl, fun images s o ws hfits hs => ?_⟩
  obtain ⟨m, hm, rfl⟩ := State.bootImages_eq_some.mp hs
  obtain ⟨m', hm', hwords, hothers⟩ := m.loadImage_fits o ws hfits
  have hloaded := Memory.loadImages_append [] images
    ((o :: ws).flatMap (fun w : Word => [(w >>> 8).setWidth 8, w.setWidth 8]))
  rw [hm, Option.bind_some, hm'] at hloaded
  exact ⟨State.boot m', State.bootImages_eq_some.mpr ⟨m', hloaded, rfl⟩, rfl, rfl, hwords, hothers⟩

/-- Settles O59: one image is a later image over none, and the reset state's memory reads zero
everywhere. -/
theorem imageIsLoadedAtItsOrigin : Obligations.ImageIsLoadedAtItsOrigin := by
  unfold Obligations.ImageIsLoadedAtItsOrigin
  intro o ws hfits
  obtain ⟨hreset, hlater⟩ := laterImagesOverwriteEarlierOnes
  obtain ⟨t, ht, -, hpc, hwords, hothers⟩ := hlater [] State.reset o ws hfits hreset
  exact ⟨t, ht, hpc, hwords, hothers⟩

end Sys2Proof.Machine
end
